-- ==== Sys2Proof/Word.lean ====
section
/-! DEFINITION. The word types of the core (spec/10_state.md R20, R24, R26; spec/00_scope.md R11: bit 0 is the least significant bit, all values unsigned). -/

namespace Sys2Proof

/-- A byte: the width of a general register, a timer and a memory cell (R20, R33, R37). -/
abbrev Byte := BitVec 8

/-- A 16-bit word: an instruction word, and the storage width of I, pc and the stack entries (R24, R26, R29, R70). -/
abbrev Word := BitVec 16

/-- A 12-bit address, as an instruction's `nnn` field holds it (R13) and as a condition report carries it (R214). -/
abbrev Addr := BitVec 12

/-- The index of one of V0 to VF (R20), and of one of the sixteen keys (R39). -/
abbrev Reg := Fin 16

/-- VF, the flag register (R21). -/
abbrev vf : Reg := 15

end Sys2Proof
end

