-- ==== Sys2Proof/Syntax.lean ====
section
/-! DEFINITION. The 34 operations of spec/30_encoding.md R75 (spec/opcode_table.json), one constructor per row, with the operand fields of spec/00_scope.md R13. -/

namespace Sys2Proof

/-- An instruction. `x` and `y` name registers, `kk` is the immediate byte, `nnn` the 12-bit address, `n` the sprite
height (a count; `Instr.wf` bounds it by 15). Fields the decoder ignores (R73, R74) are not kept; the `y` of the two
shifts is an operand field of the table whose value the semantics ignore (R128, R130). -/
inductive Instr where
  /-- `0_E0` CLS (R150) -/
  | cls
  /-- `0_EE` RET (R100) -/
  | ret
  /-- `1nnn` JP addr (R101) -/
  | jp (nnn : Addr)
  /-- `2nnn` CALL addr (R102) -/
  | call (nnn : Addr)
  /-- `3xkk` SE Vx, byte (R103) -/
  | seByte (x : Reg) (kk : Byte)
  /-- `4xkk` SNE Vx, byte (R104) -/
  | sneByte (x : Reg) (kk : Byte)
  /-- `5xy_` SE Vx, Vy (R105) -/
  | seReg (x y : Reg)
  /-- `6xkk` LD Vx, byte (R120) -/
  | ldByte (x : Reg) (kk : Byte)
  /-- `7xkk` ADD Vx, byte (R121) -/
  | addByte (x : Reg) (kk : Byte)
  /-- `8xy0` LD Vx, Vy (R122) -/
  | ldReg (x y : Reg)
  /-- `8xy1` OR Vx, Vy (R123) -/
  | orReg (x y : Reg)
  /-- `8xy2` AND Vx, Vy (R124) -/
  | andReg (x y : Reg)
  /-- `8xy3` XOR Vx, Vy (R125) -/
  | xorReg (x y : Reg)
  /-- `8xy4` ADD Vx, Vy (R126) -/
  | addReg (x y : Reg)
  /-- `8xy5` SUB Vx, Vy (R127) -/
  | subReg (x y : Reg)
  /-- `8xy6` SHR Vx (R128) -/
  | shr (x y : Reg)
  /-- `8xy7` SUBN Vx, Vy (R129) -/
  | subn (x y : Reg)
  /-- `8xyE` SHL Vx (R130) -/
  | shl (x y : Reg)
  /-- `9xy_` SNE Vx, Vy (R106) -/
  | sneReg (x y : Reg)
  /-- `Annn` LD I, addr (R190) -/
  | ldI (nnn : Addr)
  /-- `Bnnn` JP V0, addr (R107) -/
  | jpV0 (nnn : Addr)
  /-- `Cxkk` RND Vx, byte (R140) -/
  | rnd (x : Reg) (kk : Byte)
  /-- `Dxyn` DRW Vx, Vy, nibble (R151) -/
  | drw (x y : Reg) (n : Nat)
  /-- `Ex9E` SKP Vx (R170) -/
  | skp (x : Reg)
  /-- `ExA1` SKNP Vx (R171) -/
  | sknp (x : Reg)
  /-- `Fx07` LD Vx, DT (R172) -/
  | ldVDt (x : Reg)
  /-- `Fx0A` LD Vx, K (R173) -/
  | ldVK (x : Reg)
  /-- `Fx15` LD DT, Vx (R174) -/
  | ldDtV (x : Reg)
  /-- `Fx18` LD ST, Vx (R175) -/
  | ldStV (x : Reg)
  /-- `Fx1E` ADD I, Vx (R191) -/
  | addI (x : Reg)
  /-- `Fx29` LD F, Vx (R192) -/
  | ldF (x : Reg)
  /-- `Fx33` LD B, Vx (R193) -/
  | ldB (x : Reg)
  /-- `Fx55` LD [I], Vx (R194) -/
  | ldMemV (x : Reg)
  /-- `Fx65` LD Vx, [I] (R195) -/
  | ldVMem (x : Reg)
  deriving DecidableEq, Repr

end Sys2Proof
end

