-- ==== Sys2Proof/WellFormed.lean ====
section
/-! DEFINITION. Which terms of `Instr` an instruction word can hold. Register indices, bytes and addresses are bounded by their types; the sprite height is a count, and R77 (spec/30_encoding.md) bounds it: "`n` is a 4-bit unsigned count 0 to 15". -/

namespace Sys2Proof

/-- `i` has a word that encodes it. -/
def Instr.wf (i : Instr) : Bool :=
  match i with
  | .drw _ _ n => decide (n ≤ 15)
  | .cls | .ret | .jp _ | .call _ | .seByte _ _ | .sneByte _ _ | .seReg _ _ | .ldByte _ _ | .addByte _ _
  | .ldReg _ _ | .orReg _ _ | .andReg _ _ | .xorReg _ _ | .addReg _ _ | .subReg _ _ | .shr _ _ | .subn _ _
  | .shl _ _ | .sneReg _ _ | .ldI _ | .jpV0 _ | .rnd _ _ | .skp _ | .sknp _ | .ldVDt _ | .ldVK _ | .ldDtV _
  | .ldStV _ | .addI _ | .ldF _ | .ldB _ | .ldMemV _ | .ldVMem _ => true

end Sys2Proof
end

