-- ==== Sys2Proof/Decode.lean ====
section
/-! DEFINITION. Decoding (spec/30_encoding.md R70 to R77, R82), total on every word, the encoder, and the opcode map of R75 as data. -/

namespace Sys2Proof

/-! ## Fields (spec/00_scope.md R13) -/

/-- The class `w[15:12]` (R71). -/
def fieldClass (w : Word) : BitVec 4 := w.extractLsb' 12 4

/-- `x = w[11:8]`. -/
def fieldX (w : Word) : Reg := (w.extractLsb' 8 4).toFin

/-- `y = w[7:4]`. -/
def fieldY (w : Word) : Reg := (w.extractLsb' 4 4).toFin

/-- `n = w[3:0]`, which is also class 8's second-lookup key. -/
def fieldN (w : Word) : BitVec 4 := w.extractLsb' 0 4

/-- `kk = w[7:0]`, which is also the second-lookup key of classes 0, E and F. -/
def fieldKk (w : Word) : Byte := w.extractLsb' 0 8

/-- `nnn = w[11:0]`. -/
def fieldNnn (w : Word) : Addr := w.extractLsb' 0 12

/-! ## Decoding -/

/-- What decoding a word gives (R82): one operation, or the mask of the second lookup that found no entry (R73). -/
inductive Decoded where
  | instr (i : Instr)
  | unrecognized (mask : Word)
  deriving DecidableEq, Repr

/-- The mask reported when the second lookup of class 0, E or F misses (R73). -/
def maskByteKey : Word := 0xF0FF

/-- The mask reported when the second lookup of class 8 misses (R73). -/
def maskNibbleKey : Word := 0xF00F

/-- Second lookup of class 0, keyed by the lowest byte; bits 11:8 are ignored (R73, R76). -/
def decodeClass0 (w : Word) : Decoded :=
  match (fieldKk w).toNat with
  | 0xE0 => .instr .cls
  | 0xEE => .instr .ret
  | _ => .unrecognized maskByteKey

/-- Second lookup of class 8, keyed by the lowest nibble (R73, R76). -/
def decodeClass8 (w : Word) : Decoded :=
  match (fieldN w).toNat with
  | 0x0 => .instr (.ldReg (fieldX w) (fieldY w))
  | 0x1 => .instr (.orReg (fieldX w) (fieldY w))
  | 0x2 => .instr (.andReg (fieldX w) (fieldY w))
  | 0x3 => .instr (.xorReg (fieldX w) (fieldY w))
  | 0x4 => .instr (.addReg (fieldX w) (fieldY w))
  | 0x5 => .instr (.subReg (fieldX w) (fieldY w))
  | 0x6 => .instr (.shr (fieldX w) (fieldY w))
  | 0x7 => .instr (.subn (fieldX w) (fieldY w))
  | 0xE => .instr (.shl (fieldX w) (fieldY w))
  | _ => .unrecognized maskNibbleKey

/-- Second lookup of class E, keyed by the lowest byte (R73, R76). -/
def decodeClassE (w : Word) : Decoded :=
  match (fieldKk w).toNat with
  | 0x9E => .instr (.skp (fieldX w))
  | 0xA1 => .instr (.sknp (fieldX w))
  | _ => .unrecognized maskByteKey

/-- Second lookup of class F, keyed by the lowest byte (R73, R76). -/
def decodeClassF (w : Word) : Decoded :=
  match (fieldKk w).toNat with
  | 0x07 => .instr (.ldVDt (fieldX w))
  | 0x0A => .instr (.ldVK (fieldX w))
  | 0x15 => .instr (.ldDtV (fieldX w))
  | 0x18 => .instr (.ldStV (fieldX w))
  | 0x1E => .instr (.addI (fieldX w))
  | 0x29 => .instr (.ldF (fieldX w))
  | 0x33 => .instr (.ldB (fieldX w))
  | 0x55 => .instr (.ldMemV (fieldX w))
  | 0x65 => .instr (.ldVMem (fieldX w))
  | _ => .unrecognized maskByteKey

/-- The two-level lookup of R72 and R73. Twelve classes name one operation each and ignore the bits it does not use
(R74); classes 0, 8, E and F need the second lookup. The last arm is class F, the one nibble left. -/
def decode (w : Word) : Decoded :=
  match (fieldClass w).toNat with
  | 0x0 => decodeClass0 w
  | 0x1 => .instr (.jp (fieldNnn w))
  | 0x2 => .instr (.call (fieldNnn w))
  | 0x3 => .instr (.seByte (fieldX w) (fieldKk w))
  | 0x4 => .instr (.sneByte (fieldX w) (fieldKk w))
  | 0x5 => .instr (.seReg (fieldX w) (fieldY w))
  | 0x6 => .instr (.ldByte (fieldX w) (fieldKk w))
  | 0x7 => .instr (.addByte (fieldX w) (fieldKk w))
  | 0x8 => decodeClass8 w
  | 0x9 => .instr (.sneReg (fieldX w) (fieldY w))
  | 0xA => .instr (.ldI (fieldNnn w))
  | 0xB => .instr (.jpV0 (fieldNnn w))
  | 0xC => .instr (.rnd (fieldX w) (fieldKk w))
  | 0xD => .instr (.drw (fieldX w) (fieldY w) (fieldN w).toNat)
  | 0xE => decodeClassE w
  | _ => decodeClassF w

/-- The instruction of a decoded word, none where the word is unrecognized. -/
def Decoded.toInstr (d : Decoded) : Option Instr :=
  match d with
  | .instr i => some i
  | .unrecognized _ => none

/-- An instruction word from its two bytes, the byte at the lower address first: big-endian (spec/20_memory.md R52). -/
def composeWord (hi lo : Byte) : Word := hi ++ lo

/-- Decoding as the host's opcode table numbers a row: all of this hardware's instructions have 16 bits, so bits above
16 name no word; the word is split into its bytes as memory holds them, and these go to the decoder. -/
def decodeTableWord (nbits w : Nat) : Option Instr :=
  if nbits ≤ 16 then
    let v : Word := BitVec.ofNat 16 (w % 2 ^ nbits)
    (decode (composeWord (v.extractLsb' 8 8) (v.extractLsb' 0 8))).toInstr
  else none

/-! ## Encoding (the five formats of R71) -/

/-- Format `A`: class, address. -/
def formatA (c : BitVec 4) (nnn : Addr) : Word := c ++ nnn

/-- Format `XK`: class, register, byte; the formats `X` and `Z` are this one with a function byte. -/
def formatXK (c : BitVec 4) (x : Reg) (kk : Byte) : Word := c ++ (BitVec.ofFin x : BitVec 4) ++ kk

/-- Format `XY`: class, two registers, function nibble or count. -/
def formatXY (c : BitVec 4) (x y : Reg) (n : BitVec 4) : Word :=
  c ++ (BitVec.ofFin x : BitVec 4) ++ (BitVec.ofFin y : BitVec 4) ++ n

/-- The word of an instruction by the opcode map of R75, with 0 in the bits the decoder ignores. -/
def encode (i : Instr) : Word :=
  match i with
  | .cls => formatXK 0x0 0 0xE0
  | .ret => formatXK 0x0 0 0xEE
  | .jp nnn => formatA 0x1 nnn
  | .call nnn => formatA 0x2 nnn
  | .seByte x kk => formatXK 0x3 x kk
  | .sneByte x kk => formatXK 0x4 x kk
  | .seReg x y => formatXY 0x5 x y 0x0
  | .ldByte x kk => formatXK 0x6 x kk
  | .addByte x kk => formatXK 0x7 x kk
  | .ldReg x y => formatXY 0x8 x y 0x0
  | .orReg x y => formatXY 0x8 x y 0x1
  | .andReg x y => formatXY 0x8 x y 0x2
  | .xorReg x y => formatXY 0x8 x y 0x3
  | .addReg x y => formatXY 0x8 x y 0x4
  | .subReg x y => formatXY 0x8 x y 0x5
  | .shr x y => formatXY 0x8 x y 0x6
  | .subn x y => formatXY 0x8 x y 0x7
  | .shl x y => formatXY 0x8 x y 0xE
  | .sneReg x y => formatXY 0x9 x y 0x0
  | .ldI nnn => formatA 0xA nnn
  | .jpV0 nnn => formatA 0xB nnn
  | .rnd x kk => formatXK 0xC x kk
  | .drw x y n => formatXY 0xD x y (BitVec.ofNat 4 n)
  | .skp x => formatXK 0xE x 0x9E
  | .sknp x => formatXK 0xE x 0xA1
  | .ldVDt x => formatXK 0xF x 0x07
  | .ldVK x => formatXK 0xF x 0x0A
  | .ldDtV x => formatXK 0xF x 0x15
  | .ldStV x => formatXK 0xF x 0x18
  | .addI x => formatXK 0xF x 0x1E
  | .ldF x => formatXK 0xF x 0x29
  | .ldB x => formatXK 0xF x 0x33
  | .ldMemV x => formatXK 0xF x 0x55
  | .ldVMem x => formatXK 0xF x 0x65

/-! ## The opcode map of R75, as the table gives it -/

/-- The mnemonic of an instruction's row, as spec/opcode_table.json spells it. -/
def Instr.mnemonic (i : Instr) : String :=
  match i with
  | .cls => "CLS"
  | .ret => "RET"
  | .jp _ => "JP_addr"
  | .call _ => "CALL_addr"
  | .seByte _ _ => "SE_Vx__byte"
  | .sneByte _ _ => "SNE_Vx__byte"
  | .seReg _ _ => "SE_Vx__Vy"
  | .ldByte _ _ => "LD_Vx__byte"
  | .addByte _ _ => "ADD_Vx__byte"
  | .ldReg _ _ => "LD_Vx__Vy"
  | .orReg _ _ => "OR_Vx__Vy"
  | .andReg _ _ => "AND_Vx__Vy"
  | .xorReg _ _ => "XOR_Vx__Vy"
  | .addReg _ _ => "ADD_Vx__Vy"
  | .subReg _ _ => "SUB_Vx__Vy"
  | .shr _ _ => "SHR_Vx____Vy"
  | .subn _ _ => "SUBN_Vx__Vy"
  | .shl _ _ => "SHL_Vx____Vy"
  | .sneReg _ _ => "SNE_Vx__Vy"
  | .ldI _ => "LD_I__addr"
  | .jpV0 _ => "JP_V0__addr"
  | .rnd _ _ => "RND_Vx__byte"
  | .drw _ _ _ => "DRW_Vx__Vy__nibble"
  | .skp _ => "SKP_Vx"
  | .sknp _ => "SKNP_Vx"
  | .ldVDt _ => "LD_Vx__DT"
  | .ldVK _ => "LD_Vx__K"
  | .ldDtV _ => "LD_DT__Vx"
  | .ldStV _ => "LD_ST__Vx"
  | .addI _ => "ADD_I__Vx"
  | .ldF _ => "LD_F__Vx"
  | .ldB _ => "LD_B__Vx"
  | .ldMemV _ => "LD__I___Vx"
  | .ldVMem _ => "LD_Vx___I"

/-- The row a decoded word names: one mnemonic, or none where the word is unrecognized (R76). -/
def Decoded.mnemonics (d : Decoded) : List String :=
  match d with
  | .instr i => [i.mnemonic]
  | .unrecognized _ => []

/-- A row of the opcode map: the word `w` selects it iff `w &&& mask = pattern` (R75). -/
structure OpcodeRow where
  pattern : Word
  mask : Word
  mnemonic : String
  deriving DecidableEq, Repr

/-- The word `w` selects the row `r` (R75). -/
def selects (w : Word) (r : OpcodeRow) : Bool := w &&& r.mask == r.pattern

/-- The rows of classes 0 to 7. -/
def opcodeRowsLow : List OpcodeRow :=
  [⟨0x00E0, 0xF0FF, "CLS"⟩, ⟨0x00EE, 0xF0FF, "RET"⟩, ⟨0x1000, 0xF000, "JP_addr"⟩, ⟨0x2000, 0xF000, "CALL_addr"⟩,
   ⟨0x3000, 0xF000, "SE_Vx__byte"⟩, ⟨0x4000, 0xF000, "SNE_Vx__byte"⟩, ⟨0x5000, 0xF000, "SE_Vx__Vy"⟩,
   ⟨0x6000, 0xF000, "LD_Vx__byte"⟩, ⟨0x7000, 0xF000, "ADD_Vx__byte"⟩]

/-- The rows of class 8. -/
def opcodeRowsAlu : List OpcodeRow :=
  [⟨0x8000, 0xF00F, "LD_Vx__Vy"⟩, ⟨0x8001, 0xF00F, "OR_Vx__Vy"⟩, ⟨0x8002, 0xF00F, "AND_Vx__Vy"⟩,
   ⟨0x8003, 0xF00F, "XOR_Vx__Vy"⟩, ⟨0x8004, 0xF00F, "ADD_Vx__Vy"⟩, ⟨0x8005, 0xF00F, "SUB_Vx__Vy"⟩,
   ⟨0x8006, 0xF00F, "SHR_Vx____Vy"⟩, ⟨0x8007, 0xF00F, "SUBN_Vx__Vy"⟩, ⟨0x800E, 0xF00F, "SHL_Vx____Vy"⟩]

/-- The rows of classes 9 to F. -/
def opcodeRowsHigh : List OpcodeRow :=
  [⟨0x9000, 0xF000, "SNE_Vx__Vy"⟩, ⟨0xA000, 0xF000, "LD_I__addr"⟩, ⟨0xB000, 0xF000, "JP_V0__addr"⟩,
   ⟨0xC000, 0xF000, "RND_Vx__byte"⟩, ⟨0xD000, 0xF000, "DRW_Vx__Vy__nibble"⟩, ⟨0xE09E, 0xF0FF, "SKP_Vx"⟩,
   ⟨0xE0A1, 0xF0FF, "SKNP_Vx"⟩, ⟨0xF007, 0xF0FF, "LD_Vx__DT"⟩, ⟨0xF00A, 0xF0FF, "LD_Vx__K"⟩,
   ⟨0xF015, 0xF0FF, "LD_DT__Vx"⟩, ⟨0xF018, 0xF0FF, "LD_ST__Vx"⟩, ⟨0xF01E, 0xF0FF, "ADD_I__Vx"⟩,
   ⟨0xF029, 0xF0FF, "LD_F__Vx"⟩, ⟨0xF033, 0xF0FF, "LD_B__Vx"⟩, ⟨0xF055, 0xF0FF, "LD__I___Vx"⟩,
   ⟨0xF065, 0xF0FF, "LD_Vx___I"⟩]

/-- The opcode map of R75. -/
def opcodeRows : List OpcodeRow := opcodeRowsLow ++ opcodeRowsAlu ++ opcodeRowsHigh

end Sys2Proof
end

