-- ==== Sys2Proof/Config.lean ====
section
/-! DEFINITION. The fixed parameters of the core (spec/00_scope.md R9) and its one open parameter, the random byte source (R10). -/

namespace Sys2Proof

/-- MEM_SIZE (R9, R50): the number of bytes of the flat store. -/
abbrev Config.memSize : Nat := 4096

/-- ADDR_MASK (R9, R51). -/
abbrev Config.addrMask : Word := 0xFFF

/-- PC_RESET (R9, R242). -/
abbrev Config.pcReset : Word := 0x200

/-- PROGRAM_BASE (R9, R231). -/
abbrev Config.programBase : Nat := 0x200

/-- PROGRAM_MAX (R9, R231): 4096 - 0x200. -/
abbrev Config.programMax : Nat := 3584

/-- STACK_DEPTH (R9, R29). -/
abbrev Config.stackDepth : Nat := 16

/-- RNG (R10, R140): the byte the n-th draw gives. It has no body, so that nothing can be proved about the value of
any draw or about two draws together. Log entry 5. -/
opaque Config.randomByte : Nat → Byte

end Sys2Proof
end

