-- ==== Sys2Proof/Machine/State.lean ====
section
/-! DEFINITION. The state of the core (spec/10_state.md), the conditions and outputs of a cycle (spec/60_exceptions.md R210, R214), and the state after reset (R43). -/

namespace Sys2Proof.Machine

/-- The framebuffer: 32 rows of 64 cells, `fb[row][col]` (R35). -/
abbrev Framebuffer := Vector (Vector Bool 64) 32

/-- The flat store of R37 and R50, as the list of those (address, byte) pairs that differ from the contents after reset
(`Memory.unlisted` in Ops.lean), in rising order of address (`Memory.wf` in Safety.lean says this form). -/
abbrev Memory := List Host.Cell

/-- The fatal conditions (spec/60_exceptions.md R210), which are the reasons for a halt (R40: HaltReason). The spec treats
each as a fault whose effect it describes (R212, R213), so a step takes it: it is recorded in `State.halted`, and no
step of this model answers `Outcome.fault`. -/
inductive Fault where
  /-- RET with an empty stack (R100, R212). Recorded by `execRet` through `raiseCondition`. Safe: a halted state is
  never a successful end (Safety.lean). -/
  | stackUnderflow
  /-- CALL with 16 entries on the stack (R102, R213). Recorded by `execCall` through `raiseCondition`. Safe: a halted
  state is never a successful end (Safety.lean). -/
  | stackOverflow
  deriving DecidableEq, Repr

/-- The spec's name for `Fault` (R40). -/
abbrev HaltReason := Fault

/-- Why `exec` gives no meaning. -/
inductive Refusal where
  /-- The arm of `exec` for an instruction without a meaning. No arm of this model raises it. Safe: nothing can be
  proved of a step that is refused. -/
  | notModelled (mnemonic : String)
  deriving DecidableEq, Repr

/-- The three classified conditions (R210). -/
inductive ConditionCode where
  /-- Code 1 (R211): not fatal. -/
  | unrecognized
  /-- Code 2 (R212): fatal. -/
  | stackUnderflow
  /-- Code 3 (R213): fatal. -/
  | stackOverflow
  deriving DecidableEq, Repr

/-- A condition report (R214): `mask` is present only for code 1. -/
structure Condition where
  code : ConditionCode
  word : Word
  addr : Addr
  mask : Option Word
  deriving DecidableEq, Repr

/-- The output record of a cycle (R42). -/
structure Out where
  tone : Bool
  report : Option Condition
  deriving DecidableEq, Repr

/-- No tone and no report. -/
abbrev Out.none : Out := ⟨false, Option.none⟩

/-- The whole machine state. -/
structure State where
  /-- V0 to VF (R20). -/
  v : Vector Byte 16
  /-- The index register I (R24). -/
  i : Word
  /-- The program counter (R26). -/
  pc : Word
  /-- The call stack, head = top (R29). -/
  stack : List Word
  /-- The delay timer DT (R33). -/
  dt : Byte
  /-- The sound timer ST (R34). -/
  st : Byte
  /-- Memory (R37). -/
  mem : Memory
  /-- The framebuffer (R35). -/
  fb : Framebuffer
  /-- The dirty flag (R36). -/
  dirty : Bool
  /-- The input vector, written by the host only (R39). -/
  key : Vector Bool 16
  /-- The run state; none means running (R40). -/
  halted : Option HaltReason
  /-- MODEL'S OWN: the output record of the last tick (R42), overwritten by every tick and read by nothing. Log entry 4. -/
  out : Out
  /-- MODEL'S OWN: how many bytes have been drawn from RNG (R10). Log entry 5. -/
  draws : Nat
  deriving DecidableEq, Repr

/-- The state after reset (R43, spec/70_reset_and_hazards.md R240). Memory lists nothing: it holds the font and zeros. -/
def State.reset : State where
  v := Vector.replicate 16 0
  i := 0
  pc := Config.pcReset
  stack := []
  dt := 0
  st := 0
  mem := []
  fb := Vector.replicate 32 (Vector.replicate 64 false)
  dirty := false
  key := Vector.replicate 16 false
  halted := Option.none
  out := Out.none
  draws := 0

end Sys2Proof.Machine
end

