-- ==== Sys2Proof/Machine/Ops.lean ====
section
/-! DEFINITION. The named operations over memory, registers, the program counter, the call stack, the framebuffer, the timers and the input vector; raising a condition; the phases of a cycle that are not Execute. -/

namespace Sys2Proof.Machine

/-! ## Memory (spec/20_memory.md) -/

/-- The glyphs 0 to 7 of the font table (spec/10_state.md R38). Log entry 2. -/
def fontGlyphsLow : List (List Byte) :=
  [[0xF0, 0x90, 0x90, 0x90, 0xF0], [0x20, 0x60, 0x20, 0x20, 0x70], [0xF0, 0x10, 0xF0, 0x80, 0xF0],
   [0xF0, 0x10, 0xF0, 0x10, 0xF0], [0x90, 0x90, 0xF0, 0x10, 0x10], [0xF0, 0x80, 0xF0, 0x10, 0xF0],
   [0xF0, 0x80, 0xF0, 0x90, 0xF0], [0xF0, 0x10, 0x20, 0x40, 0x40]]

/-- The glyphs 8 to F of the font table (R38). -/
def fontGlyphsHigh : List (List Byte) :=
  [[0xF0, 0x90, 0xF0, 0x90, 0xF0], [0xF0, 0x90, 0xF0, 0x10, 0xF0], [0xF0, 0x90, 0xF0, 0x90, 0x90],
   [0xE0, 0x90, 0xE0, 0x90, 0xE0], [0xF0, 0x80, 0x80, 0x80, 0xF0], [0xE0, 0x90, 0x90, 0x90, 0xE0],
   [0xF0, 0x80, 0xF0, 0x80, 0xF0], [0xF0, 0x80, 0xF0, 0x80, 0x80]]

/-- The 80 font bytes at 0x000 to 0x04F, glyph `d` at `5 * d` (R38). -/
def fontTable : List Byte := (fontGlyphsLow ++ fontGlyphsHigh).flatten

/-- What an address that the list does not name reads as: the contents after reset, the font at 0x000 to 0x04F and 0x00
everywhere else (R43). -/
def Memory.unlisted (a : Nat) : Byte := fontTable.getD a 0

/-- The byte at the address `a`. -/
def Memory.read (m : Memory) (a : Nat) : Byte :=
  match m with
  | [] => Memory.unlisted a
  | (k, b) :: rest => if k = a then b else Memory.read rest a

/-- The list without its entries for `a`. -/
def Memory.erase (m : Memory) (a : Nat) : Memory := m.filter fun c => c.1 != a

/-- Put an entry before the first one with a higher address. -/
def Memory.insert (m : Memory) (a : Nat) (b : Byte) : Memory :=
  match m with
  | [] => [(a, b)]
  | (k, c) :: rest => if a < k then (a, b) :: (k, c) :: rest else (k, c) :: Memory.insert rest a b

/-- Store the byte `b` at the address `a`, keeping the canonical form: a byte that `a` reads as unlisted is not listed. -/
def Memory.write (m : Memory) (a : Nat) (b : Byte) : Memory :=
  if b = Memory.unlisted a then Memory.erase m a else Memory.insert (Memory.erase m a) a b

/-- The cell an address names: every address is reduced modulo 4096 before use (R51). -/
def cellOf (a : Word) : Nat := (a &&& Config.addrMask).toNat

/-- `MemRead(a, 1)` (R12, R51). -/
def State.memRead (s : State) (a : Word) : Byte := s.mem.read (cellOf a)

/-- `MemWrite(a, 1, b)` on a memory (R12, R51). -/
def Memory.store (m : Memory) (a : Word) (b : Byte) : Memory := Memory.write m (cellOf a) b

/-- `MemWrite(a, 1, b)` (R12, R51). No address is protected (R59). -/
def State.memWrite (s : State) (a : Word) (b : Byte) : State := { s with mem := s.mem.store a b }

/-- The instruction word at the address `a`, two bytes big-endian, each address masked (R52, R54). -/
def State.wordAt (s : State) (a : Word) : Word := composeWord (s.memRead a) (s.memRead (a + 1))

/-! ## Registers and the program counter (spec/10_state.md) -/

/-- `V[x]`. -/
def State.getV (s : State) (x : Reg) : Byte := s.v[x]

/-- `V[x] <- b` (R22: a byte is already masked). -/
def State.setV (s : State) (x : Reg) (b : Byte) : State := { s with v := s.v.set x b }

/-- `I <- a`, which stores `a & 0xFFF` (R25). -/
def State.setI (s : State) (a : Word) : State := { s with i := a &&& Config.addrMask }

/-- `pc <- a`, which stores `a & 0xFFF` (R27). -/
def State.setPc (s : State) (a : Word) : State := { s with pc := a &&& Config.addrMask }

/-- The address of the executing instruction while it executes: `here = (pc - 2) & 0xFFF` (R28, spec/40_control_flow.md). -/
def State.here (s : State) : Word := (s.pc - 2) &&& Config.addrMask

/-- Skip the next word if `c` holds: `if c then pc <- pc + 2` (spec/40_control_flow.md R103 to R106, R109). -/
def State.skipIf (s : State) (c : Bool) : State := if c then s.setPc (s.pc + 2) else s

/-! ## Conditions (spec/60_exceptions.md R210 to R219) -/

/-- The halt a condition causes: none for Unrecognized, which is not fatal (R210). -/
def ConditionCode.haltReason (c : ConditionCode) : Option HaltReason :=
  match c with
  | .unrecognized => none
  | .stackUnderflow => some .stackUnderflow
  | .stackOverflow => some .stackOverflow

/-- The condition's number in a report (R210). -/
def ConditionCode.number (c : ConditionCode) : Nat :=
  match c with
  | .unrecognized => 1
  | .stackUnderflow => 2
  | .stackOverflow => 3

/-- `raise c`: report the condition with the executing word and its address (R214), and halt if it is fatal (R212, R213).
Nothing else changes: pc keeps the fetch increment, nothing is saved, no handler is entered (R218). There is no return
from a condition beside it: only `State.reset` leaves the halted state (R219), and after Unrecognized execution goes on. -/
def State.raiseCondition (s : State) (c : ConditionCode) (mask : Option Word) : State :=
  { s with
    out := { s.out with report := some ⟨c, s.wordAt s.here, s.here.setWidth 12, mask⟩ }
    halted := c.haltReason.or s.halted }

/-! ## The call stack (spec/10_state.md R29 to R31) -/

/-- `push(a)`, or StackOverflow where 16 entries are on the stack; then nothing is pushed (R30). `k` is what follows a
push that happens. -/
def State.pushOr (s : State) (a : Word) (k : State → State) : State :=
  if s.stack.length < Config.stackDepth then k { s with stack := a :: s.stack }
  else s.raiseCondition .stackOverflow none

/-- `pop()`, or StackUnderflow where the stack is empty (R31). `k` is what follows with the value popped. -/
def State.popOr (s : State) (k : Word → State → State) : State :=
  match s.stack with
  | [] => s.raiseCondition .stackUnderflow none
  | a :: rest => k a { s with stack := rest }

/-! ## The framebuffer (spec/10_state.md R35, spec/42_display.md) -/

/-- The framebuffer with every cell false (R150). -/
def Framebuffer.clear : Framebuffer := Vector.replicate 32 (Vector.replicate 64 false)

/-- `fb[row][col]`. -/
def Framebuffer.cell (fb : Framebuffer) (row : Fin 32) (col : Fin 64) : Bool := fb[row][col]

/-- `fb[row][col] <- not fb[row][col]`. -/
def Framebuffer.toggle (fb : Framebuffer) (row : Fin 32) (col : Fin 64) : Framebuffer :=
  fb.set row (fb[row].set col (!fb[row][col]))

/-- What a draw carries along (R151): the framebuffer, and whether a set cell was unset and whether any cell changed. -/
structure Draw where
  fb : Framebuffer
  collided : Bool
  changed : Bool
  deriving DecidableEq, Repr

/-- One 1-bit of a sprite at column `px` and row `py`, dropped outside the grid (R151, R153). -/
def Draw.pixel (d : Draw) (px py : Nat) : Draw :=
  if h : px < 64 ∧ py < 32 then
    { fb := Framebuffer.toggle d.fb ⟨py, h.2⟩ ⟨px, h.1⟩
      collided := d.collided || Framebuffer.cell d.fb ⟨py, h.2⟩ ⟨px, h.1⟩
      changed := true }
  else d

/-- The pixel of column `c` of a sprite row: bit 7 is the leftmost (R152). -/
def spriteBit (b : Byte) (c : Nat) : Bool := b.getLsbD (7 - c)

/-- One row of a sprite: columns 0 to 7 of the byte `b` from column `cx` on, in row `py` (R151). -/
def Draw.row (d : Draw) (b : Byte) (cx py : Nat) : Draw :=
  (List.range 8).foldl (fun d c => if spriteBit b c then d.pixel (cx + c) py else d) d

/-- The rows of a sprite, in increasing order: row `r` is the byte `bytes r` (R151). -/
def Draw.sprite (d : Draw) (bytes : Nat → Byte) (n cx cy : Nat) : Draw :=
  (List.range n).foldl (fun d r => d.row (bytes r) cx (cy + r)) d

/-! ## Input and the random byte source -/

/-- `key[k]` (R39). -/
def State.keyDown (s : State) (k : Reg) : Bool := s.key[k]

/-- `lowest_pressed()`: the least `k` with `key[k] = true`, or none (R39). -/
def State.lowestPressed (s : State) : Option Reg := (List.finRange 16).find? fun k => s.keyDown k

/-- The byte the next draw gives (spec/00_scope.md R10): free, whatever the counter. Log entry 5. -/
def State.nextByte (s : State) : Byte := Config.randomByte s.draws

/-- The draw has been made: the next one is another byte. -/
def State.countDraw (s : State) : State := { s with draws := s.draws + 1 }

/-! ## The phases of a cycle (spec/30_encoding.md R85 to R92) -/

/-- A timer after one Timer-Tick: one less, and 0 stays 0 (spec/60_exceptions.md R215). -/
def timerDown (t : Byte) : Byte := if t = 0 then 0 else t - 1

/-- Timer-Tick (R215): both timers count down, and the tone event fires iff ST goes from 1 to 0 (R216). -/
def State.timerTick (s : State) : State :=
  { s with
    dt := timerDown s.dt
    st := timerDown s.st
    out := { s.out with tone := decide (s.st = 1) } }

/-- The word Fetch reads (R85). -/
def State.fetchWord (s : State) : Word := s.wordAt s.pc

/-- Fetch's effect: `pc <- pc + 2` (R86), with the cycle's output record empty at its start (R42, R90). -/
def State.fetch (s : State) : State := { s.setPc (s.pc + 2) with out := Out.none }

/-- What follows Execute: the Timer-Tick, but not in a cycle that halts (R90). -/
def State.finishCycle (s : State) : State := if s.halted.isSome then s else s.timerTick

/-- A tick of a halted machine: no state changes, and the output is empty (R91). -/
def State.haltedTick (s : State) : State := { s with out := Out.none }

end Sys2Proof.Machine
end

