-- ==== Sys2Proof/Machine/Operands.lean ====
section
/-! DEFINITION. The operand forms: every field is zero-extended (spec/30_encoding.md R77); key indices, glyph addresses, the one addressing mode I + offset, decimal digits and register ranges. -/

namespace Sys2Proof.Machine

/-- `nnn`, zero-extended (R77). -/
def zextAddr (nnn : Addr) : Word := nnn.setWidth 16

/-- A register's byte, zero-extended to the width of I and pc. -/
def zextByte (b : Byte) : Word := b.setWidth 16

/-- The low nibble of a byte: the key index `V[x] & 0xF` (spec/43_input_timers.md R176) and the digit of LD F
(spec/44_index_memory.md R192). -/
def lowNibble (b : Byte) : Reg := (b.extractLsb' 0 4).toFin

/-- The font glyph of a digit: `5 * (V[x] & 0xF)` (R192). -/
def glyphAddr (b : Byte) : Word := BitVec.ofNat 16 (5 * (lowNibble b).val)

/-- The data address `I + k`, masked where it is used (spec/20_memory.md R51). -/
def State.indexed (s : State) (k : Nat) : Word := s.i + BitVec.ofNat 16 k

/-- A key index as the byte LD Vx, K stores: 0x00 to 0x0F (R173). -/
def keyByte (k : Reg) : Byte := BitVec.ofNat 8 k.val

/-- The hundreds digit `v / 100` (R193). -/
def bcdHundreds (v : Byte) : Byte := BitVec.ofNat 8 (v.toNat / 100)

/-- The tens digit `(v / 10) % 10` (R193). -/
def bcdTens (v : Byte) : Byte := BitVec.ofNat 8 (v.toNat / 10 % 10)

/-- The units digit `v % 10` (R193). -/
def bcdUnits (v : Byte) : Byte := BitVec.ofNat 8 (v.toNat % 10)

/-- V0 to Vx in increasing order: the `for i in 0 .. x` of R194 and R195. -/
def regsUpTo (x : Reg) : List Reg := (List.finRange 16).take (x.val + 1)

end Sys2Proof.Machine
end

