-- ==== Sys2Proof/Machine/Flags.lean ====
section
/-! DEFINITION. Every flag computation of the spec (VF is the only flag, spec/10_state.md R21) and the order in which a result and a flag are written (spec/41_arithmetic.md R132). -/

namespace Sys2Proof.Machine

/-- A flag's value in VF: 1 or 0. -/
def flagByte (c : Bool) : Byte := if c then 1 else 0

/-- Carry out of `a + b`: the sum is over 255 (R126). -/
def carryFlag (a b : Byte) : Byte := flagByte (decide (a.toNat + b.toNat > 255))

/-- NOT-borrow of `a - b` under the strict comparison `a > b` (R127, R129; spec/90_conflicts.md C2). -/
def notBorrowFlag (a b : Byte) : Byte := flagByte (decide (a.toNat > b.toNat))

/-- The bit a right shift by one shifts out: the old bit 0 (R128). -/
def shrFlag (a : Byte) : Byte := a &&& 1

/-- The bit a left shift by one shifts out: the old bit 7 (R130). -/
def shlFlag (a : Byte) : Byte := (a >>> 7) &&& 1

/-- 12-bit overflow of `I + b` (spec/44_index_memory.md R191). -/
def indexOverflowFlag (i : Word) (b : Byte) : Byte := flagByte (decide (i.toNat + b.toNat > 0xFFF))

/-- Write the result register, then VF last, so that with x = F the flag stays (R132). -/
def State.setResultThenFlag (s : State) (x : Reg) (r f : Byte) : State := (s.setV x r).setV vf f

end Sys2Proof.Machine
end

