-- ==== Sys2Proof/Machine/ControlFlow.lean ====
section
/-! DEFINITION. Control transfer (spec/40_control_flow.md). In every meaning pc already holds the fetch-incremented value (R28). -/

namespace Sys2Proof.Machine

/-- RET (R100): `pc <- pop()`, StackUnderflow on an empty stack (R212). -/
def execRet (s : State) : Host.Outcome State Fault Refusal := .next (s.popOr fun a t => t.setPc a)

/-- JP addr (R101): `pc <- nnn`. -/
def execJp (nnn : Addr) (s : State) : Host.Outcome State Fault Refusal := .next (s.setPc (zextAddr nnn))

/-- CALL addr (R102): `push(pc)`, then `pc <- nnn`; StackOverflow on a full stack (R213). -/
def execCall (nnn : Addr) (s : State) : Host.Outcome State Fault Refusal :=
  .next (s.pushOr s.pc fun t => t.setPc (zextAddr nnn))

/-- SE Vx, byte (R103): skip if `V[x] = kk`. -/
def execSeByte (x : Reg) (kk : Byte) (s : State) : Host.Outcome State Fault Refusal :=
  .next (s.skipIf (s.getV x == kk))

/-- SNE Vx, byte (R104): skip if `V[x] ≠ kk`. -/
def execSneByte (x : Reg) (kk : Byte) (s : State) : Host.Outcome State Fault Refusal :=
  .next (s.skipIf (s.getV x != kk))

/-- SE Vx, Vy (R105): skip if `V[x] = V[y]`. -/
def execSeReg (x y : Reg) (s : State) : Host.Outcome State Fault Refusal :=
  .next (s.skipIf (s.getV x == s.getV y))

/-- SNE Vx, Vy (R106): skip if `V[x] ≠ V[y]`. -/
def execSneReg (x y : Reg) (s : State) : Host.Outcome State Fault Refusal :=
  .next (s.skipIf (s.getV x != s.getV y))

/-- JP V0, addr (R107): `pc <- (nnn + V[0]) & 0xFFF`. -/
def execJpV0 (nnn : Addr) (s : State) : Host.Outcome State Fault Refusal :=
  .next (s.setPc (zextAddr nnn + zextByte (s.getV 0)))

end Sys2Proof.Machine
end

