-- ==== Sys2Proof/Machine/Display.lean ====
section
/-! DEFINITION. Framebuffer instructions (spec/42_display.md). -/

namespace Sys2Proof.Machine

/-- CLS (R150): every cell false; dirty is set whether or not a cell changed. -/
def execCls (s : State) : Host.Outcome State Fault Refusal :=
  .next { s with fb := Framebuffer.clear, dirty := true }

/-- The draw of the sprite of `n` rows at `I`, at the coordinates V[x], V[y] as they are before any write (R151). -/
def State.drawSprite (s : State) (x y : Reg) (n : Nat) : Draw :=
  Draw.sprite ⟨s.fb, false, false⟩ (fun r => s.memRead (s.indexed r)) n (s.getV x).toNat (s.getV y).toNat

/-- DRW Vx, Vy, nibble (R151): VF := collision, written once and last (R154); dirty is set iff a cell changed (R155). -/
def execDrw (x y : Reg) (n : Nat) (s : State) : Host.Outcome State Fault Refusal :=
  .next
    (let d := s.drawSprite x y n
     { s.setV vf (flagByte d.collided) with fb := d.fb, dirty := s.dirty || d.changed })

end Sys2Proof.Machine
end

