-- ==== Sys2Proof/Machine/IndexMemory.lean ====
section
/-! DEFINITION. Index register and memory instructions (spec/44_index_memory.md). -/

namespace Sys2Proof.Machine

/-- LD I, addr (R190). -/
def execLdI (nnn : Addr) (s : State) : Host.Outcome State Fault Refusal := .next (s.setI (zextAddr nnn))

/-- ADD I, Vx (R191): VF := 12-bit overflow, written last. -/
def execAddI (x : Reg) (s : State) : Host.Outcome State Fault Refusal :=
  .next ((s.setI (s.i + zextByte (s.getV x))).setV vf (indexOverflowFlag s.i (s.getV x)))

/-- LD F, Vx (R192): the glyph of the digit `V[x] & 0xF`. -/
def execLdF (x : Reg) (s : State) : Host.Outcome State Fault Refusal := .next (s.setI (glyphAddr (s.getV x)))

/-- LD B, Vx (R193): hundreds, tens and units at I, I + 1 and I + 2; I is not changed. -/
def execLdB (x : Reg) (s : State) : Host.Outcome State Fault Refusal :=
  .next
    (((s.memWrite (s.indexed 0) (bcdHundreds (s.getV x))).memWrite (s.indexed 1) (bcdTens (s.getV x))).memWrite
      (s.indexed 2) (bcdUnits (s.getV x)))

/-- V0 to Vx stored at I, I + 1, …, in increasing order (R194). -/
def State.storeRegs (s : State) (x : Reg) : State :=
  (regsUpTo x).foldl (fun t k => t.memWrite (s.indexed k.val) (s.getV k)) s

/-- V0 to Vx loaded from I, I + 1, …, in increasing order (R195). -/
def State.loadRegs (s : State) (x : Reg) : State :=
  (regsUpTo x).foldl (fun t k => t.setV k (s.memRead (s.indexed k.val))) s

/-- LD [I], Vx (R194): then `I <- I + x + 1`. -/
def execLdMemV (x : Reg) (s : State) : Host.Outcome State Fault Refusal :=
  .next ((s.storeRegs x).setI (s.indexed (x.val + 1)))

/-- LD Vx, [I] (R195): then `I <- I + x + 1`. -/
def execLdVMem (x : Reg) (s : State) : Host.Outcome State Fault Refusal :=
  .next ((s.loadRegs x).setI (s.indexed (x.val + 1)))

end Sys2Proof.Machine
end

