-- ==== Sys2Proof/Machine/InputTimers.lean ====
section
/-! DEFINITION. Input and timer instructions (spec/43_input_timers.md). The Timer-Tick that follows in the same cycle is `State.timerTick`. -/

namespace Sys2Proof.Machine

/-- SKP Vx (R170): skip if the key `V[x] & 0xF` is down. -/
def execSkp (x : Reg) (s : State) : Host.Outcome State Fault Refusal :=
  .next (s.skipIf (s.keyDown (lowNibble (s.getV x))))

/-- SKNP Vx (R171): skip if the key `V[x] & 0xF` is not down. -/
def execSknp (x : Reg) (s : State) : Host.Outcome State Fault Refusal :=
  .next (s.skipIf (!s.keyDown (lowNibble (s.getV x))))

/-- LD Vx, DT (R172). -/
def execLdVDt (x : Reg) (s : State) : Host.Outcome State Fault Refusal := .next (s.setV x s.dt)

/-- LD Vx, K (R173): the lowest key down, or, with no key down, pc back to this instruction. -/
def execLdVK (x : Reg) (s : State) : Host.Outcome State Fault Refusal :=
  .next
    (match s.lowestPressed with
     | none => s.setPc (s.pc - 2)
     | some k => s.setV x (keyByte k))

/-- LD DT, Vx (R174). -/
def execLdDtV (x : Reg) (s : State) : Host.Outcome State Fault Refusal := .next { s with dt := s.getV x }

/-- LD ST, Vx (R175). -/
def execLdStV (x : Reg) (s : State) : Host.Outcome State Fault Refusal := .next { s with st := s.getV x }

end Sys2Proof.Machine
end

