-- ==== Sys2Proof/Machine/Cycle.lean ====
section
/-! DEFINITION. One tick of the core (spec/30_encoding.md R90, R91). -/

namespace Sys2Proof.Machine

/-- Decode and Execute of the fetched word `w` (R87, R88). An unrecognized word raises Unrecognized and has no other
effect (spec/60_exceptions.md R211). -/
def executeWord (w : Word) (s : State) : Host.Outcome State Fault Refusal :=
  match decode w with
  | .instr i => exec i s
  | .unrecognized mask => .next (s.raiseCondition .unrecognized (some mask))

/-- One tick (R90): Fetch, Decode, Execute, Timer-Tick; a halted machine performs no cycle (R91). The output record of
the tick is the field `out` of the state it gives. -/
def cycle (s : State) : Host.Outcome State Fault Refusal :=
  if s.halted.isSome then .next s.haltedTick
  else
    match executeWord s.fetchWord s.fetch with
    | .next t => .next t.finishCycle
    | .fault r => .fault r
    | .refused r => .refused r

/-- `s` running, with the instruction whose 16 bits are `w` (bits above `nbits` zero) stored big-endian at pc. -/
def State.placeWord (s : State) (nbits w : Nat) : State :=
  let v : Word := BitVec.ofNat 16 (w % 2 ^ nbits)
  let t := (s.memWrite s.pc (v.extractLsb' 8 8)).memWrite (s.pc + 1) (v.extractLsb' 0 8)
  { t with halted := none }

end Sys2Proof.Machine
end

