-- ==== Sys2Proof/Machine/Step.lean ====
section
/-! DEFINITION. The step of the machine is one tick (spec/30_encoding.md R90), and where it fetches its next instruction. -/

namespace Sys2Proof.Machine

/-- One host tick. -/
def step (s : State) : Host.Outcome State Fault Refusal := cycle s

/-- `s` with the instruction `w` stored where `step` fetches it, at pc. A halted machine fetches nothing, so it is set
running; nothing else changes. Log entry 9. -/
def State.withFetchWord (s : State) (nbits w : Nat) : State := s.placeWord nbits w

end Sys2Proof.Machine
end

