-- ==== Sys2Proof/Machine/HostPort.lean ====
section
/-! DEFINITION. The host's moves between cycles (spec/60_exceptions.md R225 to R233), the loader's interface (R231) and the boot sequence (spec/70_reset_and_hazards.md R243). -/

namespace Sys2Proof.Machine

/-- The bytes of `image` stored at `a`, `a + 1`, … in order. -/
def Memory.writeFrom (m : Memory) (a : Nat) (image : List Byte) : Memory :=
  match image with
  | [] => m
  | b :: rest => Memory.writeFrom (Memory.write m a b) (a + 1) rest

/-- `Load(image)` (R231): an image of at most 3584 bytes stands verbatim at 0x200 and nothing else changes; a longer one
is rejected (none), with no truncation. -/
def State.load (s : State) (image : List Byte) : Option State :=
  if image.length ≤ Config.programMax then some { s with mem := s.mem.writeFrom Config.programBase image } else none

/-- `Reset` (R230, R240): everything at its reset value. The draws already made are not made again: the byte source is
the host's, and no law holds between draws (spec/00_scope.md R10). -/
def State.resetMove (s : State) : State := { State.reset with draws := s.draws }

/-- `SetKeys(k)` (R226): the whole input vector, and nothing else. -/
def State.setKeys (s : State) (k : Vector Bool 16) : State := { s with key := k }

/-- `ClearDirty` (R229). -/
def State.clearDirty (s : State) : State := { s with dirty := false }

/-- The operations the host has (R225); it has no others (R233). -/
inductive HostMove where
  | reset
  | load (image : List Byte)
  | setKeys (k : Vector Bool 16)
  | tick
  | readFramebuffer
  | clearDirty
  deriving DecidableEq, Repr

/-- What the host gets back (R225). -/
inductive Reply where
  /-- nothing -/
  | done
  /-- The image was accepted. -/
  | accepted
  /-- The image was rejected with an error. -/
  | rejected
  /-- The output record of a tick (R232). -/
  | output (out : Out)
  /-- The 2048 cells and `dirty` (R228). -/
  | frame (fb : Framebuffer) (dirty : Bool)
  deriving DecidableEq, Repr

/-- How far a run has come, for the "when allowed" column of R225 and for R243. -/
inductive Phase where
  /-- After Reset: a load is allowed, and so is a tick ("a tick without any load", R243). -/
  | fresh
  /-- Not ticked since Reset, and the last load was accepted: another load is allowed (R225), and so is a tick. -/
  | loaded
  /-- Not ticked since Reset, and the last load was rejected: another load is allowed (R225), and the core must not be
  ticked (R243). Log entry 10. -/
  | refusedLoad
  /-- Ticked since Reset: no load is allowed (R225). -/
  | running
  deriving DecidableEq, Repr

/-- The core in its host's hands. -/
structure Session where
  phase : Phase
  state : State
  deriving DecidableEq, Repr

/-- Initialization is the first reset (R241). -/
def Session.start : Session := ⟨.fresh, State.reset⟩

/-- A tick of the session: one step of the core, and its output record for the host (R227, R232). -/
def Session.tick (c : Session) : Option (Session × Reply) :=
  match step c.state with
  | .next t => some (⟨.running, t⟩, .output t.out)
  | .fault _ => none
  | .refused _ => none

/-- A load into the session: accepted or rejected (R231). -/
def Session.load (c : Session) (image : List Byte) : Session × Reply :=
  match c.state.load image with
  | some t => (⟨.loaded, t⟩, .accepted)
  | none => (⟨.refusedLoad, c.state⟩, .rejected)

/-- One move of the host (R225): none where the move is not allowed. A load is allowed after Reset and before the first
tick, however many loads came before it. -/
def hostMove (m : HostMove) (c : Session) : Option (Session × Reply) :=
  match m with
  | .reset => some (⟨.fresh, c.state.resetMove⟩, .done)
  | .load image => if c.phase = .running then none else some (c.load image)
  | .setKeys k => some ({ c with state := c.state.setKeys k }, .done)
  | .tick => if c.phase = .refusedLoad then none else c.tick
  | .readFramebuffer => some (c, .frame c.state.fb c.state.dirty)
  | .clearDirty => some ({ c with state := c.state.clearDirty }, .done)

end Sys2Proof.Machine
end

