-- ==== Sys2Proof/Safety.lean ====
section
/-! DEFINITION. The terms claims are stated in: the canonical form of memory, well-formed states, the two ends of a run (spec/60_exceptions.md R234), launch and reachable sessions (spec/10_state.md R44), and what an instruction may write. -/

namespace Sys2Proof.Machine

/-- The canonical form of memory: addresses of the flat store, strictly rising, and no entry equal to what its address
reads as unlisted. -/
abbrev Memory.wf (m : Memory) : Prop :=
  m.Pairwise (fun c d => c.1 < d.1) ∧ ∀ c ∈ m, c.1 < Config.memSize ∧ c.2 ≠ Memory.unlisted c.1

/-- What holds of every state of a run: pc and I hold 12-bit values (R25, R27), the stack is at most 16 deep and holds
12-bit addresses (R29, R32), memory is canonical. -/
abbrev State.wf (s : State) : Prop :=
  s.pc.toNat < 4096 ∧ s.i.toNat < 4096 ∧ s.stack.length ≤ Config.stackDepth ∧
    (∀ a ∈ s.stack, a.toNat < 4096) ∧ s.mem.wf

/-- Faulted (R234): halted by a fatal condition. A faulted state is never a successful end. -/
def State.faulted (s : State) : Bool := s.halted.isSome

/-- Idle (R234): running, with a jump to itself at pc; the conventional end of a program. -/
def State.idle (s : State) : Bool :=
  match decode s.fetchWord with
  | .instr (.jp nnn) => s.halted.isNone && zextAddr nnn == s.pc
  | _ => false

/-- A launch state (R44): reset, and optionally one load. -/
def Launch (s : State) : Prop := s = State.reset ∨ ∃ image, State.reset.load image = some s

/-- The sessions that the host's moves reach from the first reset (R225, R241). -/
inductive Reachable : Session → Prop where
  | start : Reachable Session.start
  | move (m : HostMove) (c d : Session) (r : Reply) : Reachable c → hostMove m c = some (d, r) → Reachable d

/-- The word at pc in the bytes of memory, big-endian, both addresses modulo 4096 (spec/20_memory.md R52, R54). -/
def State.bytesAtPc (s : State) : Word :=
  s.mem.read (s.pc.toNat % 4096) ++ s.mem.read ((s.pc.toNat + 1) % 4096)

/-- `t` differs from `s` in the registers `ds` at most. -/
def OnlyRegs (ds : List Reg) (s t : State) : Prop :=
  t = { s with v := t.v } ∧ ∀ r, r ∉ ds → t.v[r] = s.v[r]

/-- The general registers an operation may write: its destinations, and VF where the spec has it written as a flag
(spec/10_state.md R21, R23). -/
def destRegs (i : Instr) : List Reg :=
  match i with
  | .ldByte x _ | .addByte x _ | .ldReg x _ | .orReg x _ | .andReg x _ | .xorReg x _ | .rnd x _ | .ldVDt x
  | .ldVK x => [x]
  | .addReg x _ | .subReg x _ | .shr x _ | .subn x _ | .shl x _ => [x, vf]
  | .drw _ _ _ | .addI _ => [vf]
  | .ldVMem x => regsUpTo x
  | .cls | .ret | .jp _ | .call _ | .seByte _ _ | .sneByte _ _ | .seReg _ _ | .sneReg _ _ | .ldI _ | .jpV0 _
  | .skp _ | .sknp _ | .ldDtV _ | .ldStV _ | .ldF _ | .ldB _ | .ldMemV _ => []

/-- How many bytes from I on an operation stores (spec/20_memory.md R56). -/
def storedBytes (i : Instr) : Nat :=
  match i with
  | .ldB _ => 3
  | .ldMemV x => x.val + 1
  | .cls | .ret | .jp _ | .call _ | .seByte _ _ | .sneByte _ _ | .seReg _ _ | .ldByte _ _ | .addByte _ _
  | .ldReg _ _ | .orReg _ _ | .andReg _ _ | .xorReg _ _ | .addReg _ _ | .subReg _ _ | .shr _ _ | .subn _ _
  | .shl _ _ | .sneReg _ _ | .ldI _ | .jpV0 _ | .rnd _ _ | .drw _ _ _ | .skp _ | .sknp _ | .ldVDt _ | .ldVK _
  | .ldDtV _ | .ldStV _ | .addI _ | .ldF _ | .ldVMem _ => 0

/-- For the six skips (spec/40_control_flow.md R109), whether the condition holds; none for the other operations. -/
def skipCondition (i : Instr) (s : State) : Option Bool :=
  match i with
  | .seByte x kk => some (s.v[x] == kk)
  | .sneByte x kk => some (s.v[x] != kk)
  | .seReg x y => some (s.v[x] == s.v[y])
  | .sneReg x y => some (s.v[x] != s.v[y])
  | .skp x => some (s.key[s.v[x].toNat % 16]'(Nat.mod_lt _ (by decide)))
  | .sknp x => some (!s.key[s.v[x].toNat % 16]'(Nat.mod_lt _ (by decide)))
  | .cls | .ret | .jp _ | .call _ | .ldByte _ _ | .addByte _ _ | .ldReg _ _ | .orReg _ _ | .andReg _ _
  | .xorReg _ _ | .addReg _ _ | .subReg _ _ | .shr _ _ | .subn _ _ | .shl _ _ | .ldI _ | .jpV0 _ | .rnd _ _
  | .drw _ _ _ | .ldVDt _ | .ldVK _ | .ldDtV _ | .ldStV _ | .addI _ | .ldF _ | .ldB _ | .ldMemV _
  | .ldVMem _ => none

/-- Whether the sprite of `n` rows at I lights the cell at `row` and `col` when drawn at V[x], V[y] (spec/42_display.md
R151 to R153): the cell lies in the sprite's 8 columns and `n` rows, and its bit is 1, bit 7 leftmost. -/
def spriteCovers (s : State) (x y : Reg) (n : Nat) (row : Fin 32) (col : Fin 64) : Bool :=
  let cx := s.v[x].toNat
  let cy := s.v[y].toNat
  decide (cx ≤ col.val ∧ col.val < cx + 8 ∧ cy ≤ row.val ∧ row.val < cy + n) &&
    (s.mem.read ((s.i.toNat + (row.val - cy)) % 4096)).getLsbD (7 - (col.val - cx))

end Sys2Proof.Machine
end

