-- ==== Sys2Proof/Certificates/Slice0/Obligations.lean ====
section
/-! DEFINITION. The statements for the provers, from the numbered rules of spec/. Each definition's docstring says what it states; basis, rules cited and quotes are in OBLIGATIONS.json. -/

open Sys2Proof Sys2Proof.Machine

/-! ## The cycle -/

/-- For every state the fetched word is 256 times the byte at pc mod 4096 plus the byte at (pc + 1) mod 4096, so that a
fetch at 0xFFF wraps to 0x000 and an odd pc is like any other. (R85) -/
def Obligations.FetchReadsTwoBytesBigEndian : Prop :=
  ∀ s : State, s.fetchWord = s.bytesAtPc ∧
    s.fetchWord.toNat =
      256 * (s.mem.read (s.pc.toNat % 4096)).toNat + (s.mem.read ((s.pc.toNat + 1) % 4096)).toNat

/-- A read at a gives the byte at a mod 4096; a write at a changes that byte and nothing else, in memory or elsewhere,
whatever a is (no address is protected, none faults); and the cell of the data address I + k is (I + k) mod 4096.
(20_memory.md sections 1, 5 (addresses modulo 4096; no protection, D28)) -/
def Obligations.AddressesAreReducedModulo4096 : Prop :=
  ∀ (s : State) (a : Word) (b : Byte) (k : Nat),
    s.memRead a = s.mem.read (a.toNat % 4096) ∧
    (∀ c, (s.memWrite a b).mem.read c = if c = a.toNat % 4096 then b else s.mem.read c) ∧
    (s.memWrite a b) = { s with mem := (s.memWrite a b).mem } ∧
    cellOf (s.indexed k) = (s.i.toNat + k) % 4096

/-- When the machine is running and the two bytes at pc decode to the well-formed instruction i, a step is: pc advanced by
2 (masked) and the output record emptied, then exec i, then the Timer-Tick unless the cycle halted (no Timer-Tick in a
halting cycle is the spec's decision D11). That exec i always gives a next state is
EveryStepCompletesOrReportsOneCondition. (30_encoding.md section 5 (the cycle); 92_eei_decisions.md D11) -/
def Obligations.StepRunsTheDecodedInstruction : Prop :=
  ∀ (s : State) (i : Instr) (t : State), s.halted = none → decode s.bytesAtPc = .instr i → i.wf = true →
    exec i { s with pc := (s.pc + 2) &&& 0xFFF, out := ⟨false, none⟩ } = .next t →
    step s = .next (if t.halted = none then t.timerTick else t)

/-- For every running state whose bytes at pc decode to no operation, a step advances pc by 2 (masked), counts the timers
down, reports code 1 with the raw word, the failed mask and the word's address, emits the tone iff ST was 1, and
changes nothing else. That the Timer-Tick runs is the spec's decision D12. (60_exceptions.md section 1 (Unrecognized);
92_eei_decisions.md D12) -/
def Obligations.UnrecognizedWordIsReportedAndSkipped : Prop :=
  ∀ (s : State) (m : Word), s.halted = none → decode s.bytesAtPc = .unrecognized m →
    step s = .next
      { s with
        pc := (s.pc + 2) &&& 0xFFF
        dt := if s.dt = 0 then 0 else s.dt - 1
        st := if s.st = 0 then 0 else s.st - 1
        out := ⟨decide (s.st = 1), some ⟨.unrecognized, s.bytesAtPc, s.pc.setWidth 12, some m⟩⟩ }

/-- When halted is set, a step leaves every piece of the core's state as it is and its output record is empty (the spec's
decision D11). (30_encoding.md section 5 (the cycle); 92_eei_decisions.md D11) -/
def Obligations.HaltedTickChangesNothing : Prop :=
  ∀ (s : State) (r : HaltReason), s.halted = some r → step s = .next { s with out := ⟨false, none⟩ }

/-- No step faults or refuses. A step without a report leaves the run state as it was; a step with a report (there is at
most one) was a cycle of a running core, leaves it running for Unrecognized and halted with the condition's own reason
for the two fatal ones, and then emits no tone. That CALL on a full stack is a fatal condition is the spec's decision
D10; that a fatal condition halts with its own reason and without a tone, and that a halted core reports nothing, is
D11 (log entry 3, DEDUCED). (30_encoding.md section 5 (the cycle); 60_exceptions.md section 1; 92_eei_decisions.md
D10, D11) -/
def Obligations.EveryStepCompletesOrReportsOneCondition : Prop :=
  ∀ s : State, ∃ t, step s = .next t ∧
    (t.out.report = none → t.halted = s.halted) ∧
    (∀ c, t.out.report = some c → s.halted = none ∧ t.halted = c.code.haltReason ∧
      (t.halted ≠ none → t.out.tone = false))

/-- With u the state after Execute of a running core's cycle: unless the cycle halts, the step gives u with each timer one
lower (0 stays 0) and nothing else changed; the tone is emitted iff the Timer-Tick took ST from a positive value to 0,
by nothing else, and not by reset; and in every cycle but one of LD DT (LD ST) the timer DT (ST) does not rise. (R215;
R216) -/
def Obligations.TimersCountDownOncePerCycle : Prop :=
  State.reset.out.tone = false ∧
  ∀ s u : State, s.halted = none → executeWord s.bytesAtPc { s with pc := (s.pc + 2) &&& 0xFFF, out := ⟨false, none⟩ } = .next u →
    ∃ t, step s = .next t ∧
      (u.halted = none → t = { u with dt := t.dt, st := t.st, out := t.out } ∧ t.out.report = u.out.report ∧
        t.dt.toNat = u.dt.toNat - 1 ∧ t.st.toNat = u.st.toNat - 1) ∧
      (t.out.tone = true ↔ u.halted = none ∧ 0 < u.st.toNat ∧ t.st.toNat = 0) ∧
      ((∀ x, decode s.bytesAtPc ≠ .instr (.ldDtV x)) → t.dt.toNat ≤ s.dt.toNat) ∧
      ((∀ x, decode s.bytesAtPc ≠ .instr (.ldStV x)) → t.st.toNat ≤ s.st.toNat)

/-! ## What a step may write -/

/-- If V[r] differs after a step, the word at pc decodes to an operation that writes r: as its destination, as VF for the
operations with a flag, or as one of V0 to Vx for LD Vx, [I]. (10_state.md section 1 (general registers)) -/
def Obligations.RegistersChangeOnlyByTheirWriters : Prop :=
  ∀ (s t : State) (r : Reg), step s = .next t → t.v[r] ≠ s.v[r] →
    ∃ i, decode s.bytesAtPc = .instr i ∧ r ∈ destRegs i

/-- If the byte at a reads differently after a step, the word at pc decodes to LD B, Vx and a is the cell of I, I + 1 or I
+ 2, or to LD [I], Vx and a is the cell of I + k for some k at most x. (20_memory.md section 4 (accesses of each
instruction)) -/
def Obligations.MemoryChangesOnlyByStores : Prop :=
  ∀ (s t : State) (a : Nat), step s = .next t → t.mem.read a ≠ s.mem.read a →
    ∃ i k, decode s.bytesAtPc = .instr i ∧ k < storedBytes i ∧ a = cellOf (s.indexed k)

/-- If a step changes a cell or dirty, the word at pc is CLS or DRW; after a step that changed a cell dirty is set; and a
step never clears dirty. (10_state.md section 6 (framebuffer)) -/
def Obligations.FramebufferAndDirtyChangeOnlyByClsAndDrw : Prop :=
  ∀ s t : State, step s = .next t →
    (t.fb ≠ s.fb ∨ t.dirty ≠ s.dirty →
      decode s.bytesAtPc = .instr .cls ∨ ∃ x y n, decode s.bytesAtPc = .instr (.drw x y n)) ∧
    (t.fb ≠ s.fb → t.dirty = true) ∧ (s.dirty = true → t.dirty = true)

/-- Every step leaves the input vector alone; the stack and the run state change only under RET and CALL; I changes only
under LD I, ADD I, LD F, LD [I] and LD Vx, [I]. (10_state.md sections 2, 4, 8, 9) -/
def Obligations.StackIndexKeysAndHaltChangeOnlyByTheirOperations : Prop :=
  ∀ s t : State, step s = .next t →
    t.key = s.key ∧
    (t.stack ≠ s.stack ∨ t.halted ≠ s.halted →
      decode s.bytesAtPc = .instr .ret ∨ ∃ nnn, decode s.bytesAtPc = .instr (.call nnn)) ∧
    (t.i ≠ s.i →
      (∃ nnn, decode s.bytesAtPc = .instr (.ldI nnn)) ∨ (∃ x, decode s.bytesAtPc = .instr (.addI x)) ∨
      (∃ x, decode s.bytesAtPc = .instr (.ldF x)) ∨ (∃ x, decode s.bytesAtPc = .instr (.ldMemV x)) ∨
      (∃ x, decode s.bytesAtPc = .instr (.ldVMem x)))

/-- Two states that differ only in dirty, in ST and in the last output record step to states that differ only in these,
and report the same condition: no instruction reads dirty or ST, and no output feeds back into the core. (10_state.md
sections 5, 6; 60_exceptions.md section 5) -/
def Obligations.OutputDirtyAndSoundTimerAreNeverRead : Prop :=
  ∀ (s t : State) (d : Bool) (o : Out) (b : Byte), step s = .next t →
    ∃ d' o' b', step { s with dirty := d, out := o, st := b } = .next { t with dirty := d', out := o', st := b' } ∧
      o'.report = t.out.report

/-! ## Invariants, reset and the host -/

/-- From every state whose pc, I and stack entries are below 4096, whose stack has at most 16 entries and whose memory is
in canonical form, a step gives a state of which the same holds. (10_state.md sections 2, 3, 4; 20_memory.md section
1) -/
def Obligations.StepKeepsStatesWellFormed : Prop :=
  ∀ s t : State, s.wf → step s = .next t → t.wf

/-- The state after reset meets the invariant of StepKeepsStatesWellFormed. (10_state.md section 10 (reset values)) -/
def Obligations.ResetIsWellFormed : Prop :=
  State.reset.wf

/-- In every session that any sequence of allowed host moves (reset, load, set keys, tick, read the framebuffer, clear
dirty) reaches from the first reset, the state meets the invariant of StepKeepsStatesWellFormed. Which moves are
allowed when is the table of R225 with the spec's decisions D24 and D25, as log entry 10 reads it. (60_exceptions.md
section 5 (host interface); 70_reset_and_hazards.md sections 1, 2; 92_eei_decisions.md D24, D25) -/
def Obligations.ReachableSessionsAreWellFormed : Prop :=
  ∀ c : Session, Reachable c → c.state.wf

/-- Whatever move other than Reset the host makes on a session whose core is halted, the core stays halted for the same
reason (the spec's decision D11). (10_state.md section 9; 60_exceptions.md sections 1, 4; 92_eei_decisions.md D11) -/
def Obligations.OnlyResetLeavesTheHaltedState : Prop :=
  ∀ (m : HostMove) (c d : Session) (r : Reply), hostMove m c = some (d, r) → c.state.halted ≠ none →
    m ≠ .reset → d.state.halted = c.state.halted

/-- After reset V0 to VF, I, DT and ST are 0, pc is 0x200, the stack is empty, every key and cell is false, dirty is false
(the spec's decision D16), the core is running (D11), and memory holds the font table (byte values the spec takes from
general knowledge, D15) at 0x000 to 0x04F and 0x00 elsewhere. (10_state.md section 10 (reset values);
92_eei_decisions.md D11, D15, D16) -/
def Obligations.ResetLeavesTheSpecifiedValues : Prop :=
  (∀ r : Reg, State.reset.v[r] = 0) ∧ State.reset.i = 0 ∧ State.reset.pc = 0x200 ∧ State.reset.stack = [] ∧
  State.reset.dt = 0 ∧ State.reset.st = 0 ∧ (∀ k : Reg, State.reset.key[k] = false) ∧
  (∀ (row : Fin 32) (col : Fin 64), State.reset.fb[row][col] = false) ∧
  State.reset.dirty = false ∧ State.reset.halted = none ∧
  (∀ a : Nat, 80 ≤ a → State.reset.mem.read a = 0) ∧
  (∀ (d : Fin 16) (k : Fin 5), State.reset.mem.read (5 * d.val + k.val) =
    ([0xF0909090F0, 0x2060202070, 0xF010F080F0, 0xF010F010F0, 0x9090F01010, 0xF080F010F0, 0xF080F090F0,
      0xF010204040, 0xF090F090F0, 0xF090F010F0, 0xF090F09090, 0xE090E090E0, 0xF0808080F0, 0xE0909090E0,
      0xF080F080F0, 0xF080F08080] : List (BitVec 40))[d].extractLsb' (8 * (4 - k.val)) 8)

/-- Between Reset and the first tick, whatever was loaded before, Load of an image of at most 4096 - 0x200 bytes is
accepted, puts its byte i at 0x200 + i and changes nothing else; a longer image is rejected with the state unchanged,
and the core may then not be ticked; a core that has been ticked since reset takes no load (rejection and the time of
loading are the spec's decision D24; that a further load may follow a rejected one, and that the last load decides
about the tick, is log entry 10, DEDUCED). (60_exceptions.md section 5 (host interface); 70_reset_and_hazards.md
section 2; 92_eei_decisions.md D24) -/
def Obligations.LoadAcceptsOrRejectsTheImage : Prop :=
  ∀ (c : Session) (image : List Byte),
    (c.phase ≠ .running → image.length ≤ 3584 → ∃ d, hostMove (.load image) c = some (d, .accepted) ∧
      d.state = { c.state with mem := d.state.mem } ∧
      ∀ a, d.state.mem.read a =
        if h : 0x200 ≤ a ∧ a - 0x200 < image.length then image[a - 0x200] else c.state.mem.read a) ∧
    (c.phase ≠ .running → 3584 < image.length →
      hostMove (.load image) c = some (⟨.refusedLoad, c.state⟩, .rejected) ∧
      hostMove .tick ⟨.refusedLoad, c.state⟩ = none) ∧
    (c.phase = .running → hostMove (.load image) c = none)

/-- Reset gives every piece of the core's state its reset value; SetKeys replaces the input vector and ClearDirty clears
dirty, nothing else; ReadFramebuffer changes nothing and hands over the cells and dirty; Tick runs one step and hands
over its output record. (60_exceptions.md section 5 (host interface)) -/
def Obligations.HostMovesDoWhatTheInterfaceSays : Prop :=
  ∀ c : Session,
    (∃ d, hostMove .reset c = some (⟨.fresh, d⟩, .done) ∧ d = { State.reset with draws := d.draws }) ∧
    (∀ k, hostMove (.setKeys k) c = some (⟨c.phase, { c.state with key := k }⟩, .done)) ∧
    hostMove .clearDirty c = some (⟨c.phase, { c.state with dirty := false }⟩, .done) ∧
    hostMove .readFramebuffer c = some (c, .frame c.state.fb c.state.dirty) ∧
    (c.phase ≠ .refusedLoad → ∀ t, step c.state = .next t →
      hostMove .tick c = some (⟨.running, t⟩, .output t.out))

/-- From an idle state (running, the word at pc a jump to pc) a step changes only the timers and the output record,
reports nothing, and the state is idle again. (40_control_flow.md (JP addr, corner cases); 60_exceptions.md section 5
(end of a run)) -/
def Obligations.IdleSelfJumpOnlyCountsTimers : Prop :=
  ∀ s : State, s.idle = true → ∃ t, step s = .next t ∧ t = { s with dt := t.dt, st := t.st, out := t.out } ∧
    t.out.report = none ∧ t.idle = true

/-! ## Encoding -/

/-- For every operation and every value of its operands that the encoding admits, the decoder reads the encoded word as
that instruction. (30_encoding.md sections 1, 2, 3) -/
def Obligations.DecodeOfEncodeIsTheInstruction : Prop :=
  ∀ i : Instr, i.wf = true → decode (encode i) = .instr i

/-- Every recognized word decodes to a well-formed instruction, whose encoding is the word with bits 11:8 cleared in class
0 and bits 3:0 cleared in classes 5 and 9, and the very same word in every other class (which bits are ignored is the
spec's decision D2). (30_encoding.md section 3; 92_eei_decisions.md D2) -/
def Obligations.EncodeOfDecodeKeepsAllBitsTheDecoderReads : Prop :=
  ∀ (w : Word) (i : Instr), decode w = .instr i → i.wf = true ∧
    encode i = w &&&
      (if w.toNat / 4096 = 0 then 0xF0FF
       else if w.toNat / 4096 = 5 ∨ w.toNat / 4096 = 9 then 0xFFF0 else 0xFFFF)

/-- For every one of the 65536 words, the rows of the opcode map whose mask and match select it are exactly the one row of
the operation it decodes to, or none if it is unrecognized (the patterns are the spec's decision D1, from general
knowledge). (30_encoding.md section 3 (the opcode map); 92_eei_decisions.md D1) -/
def Obligations.DecodingFollowsTheOpcodeMap : Prop :=
  ∀ w : Word, (opcodeRows.filter (selects w)).map OpcodeRow.mnemonic = (decode w).mnemonics

/-- A word is unrecognized iff it is of class 0, 8, E or F with a key that names no operation, and the mask is that of the
class's second lookup (the patterns are the spec's decisions D1, D2 and D3). (30_encoding.md section 3;
92_eei_decisions.md D1, D2, D3) -/
def Obligations.UnrecognizedWordsAreExactlyTheListed : Prop :=
  ∀ w m : Word, decode w = .unrecognized m ↔
    (w.toNat / 4096 = 0x0 ∧ w.toNat % 256 ∉ [0xE0, 0xEE] ∧ m = 0xF0FF) ∨
    (w.toNat / 4096 = 0x8 ∧ w.toNat % 16 ∈ [0x8, 0x9, 0xA, 0xB, 0xC, 0xD, 0xF] ∧ m = 0xF00F) ∨
    (w.toNat / 4096 = 0xE ∧ w.toNat % 256 ∉ [0x9E, 0xA1] ∧ m = 0xF0FF) ∨
    (w.toNat / 4096 = 0xF ∧ w.toNat % 256 ∉ [0x07, 0x0A, 0x15, 0x18, 0x1E, 0x29, 0x33, 0x55, 0x65] ∧ m = 0xF0FF)

/-- The words 00EE, 2300, 3342, 8125, D125, E29E and FA33 decode to RET, CALL 0x300, SE V3, 0x42, SUB V1, V2, DRW V1, V2,
5, SKP V2 and LD B, VA, and FFFF is unrecognized. The bit patterns are the spec's decision D1, from general knowledge
(log entry 1, PRESUMED). (30_encoding.md section 3; 92_eei_decisions.md D1; 95_test_vectors.md L2) -/
def Obligations.SampleWordsDecodeAsTheSpecWritesThem : Prop :=
  decode 0b0000000011101110 = .instr .ret ∧ decode 0b0010001100000000 = .instr (.call 0x300) ∧
  decode 0b0011001101000010 = .instr (.seByte 3 0x42) ∧ decode 0b1000000100100101 = .instr (.subReg 1 2) ∧
  decode 0b1101000100100101 = .instr (.drw 1 2 5) ∧ decode 0b1110001010011110 = .instr (.skp 2) ∧
  decode 0b1111101000110011 = .instr (.ldB 10) ∧ decode 0b1111111111111111 = .unrecognized 0xF0FF

/-! ## Control flow -/

/-- For every address and state, JP completes with pc equal to nnn and all other state unchanged. (R101) -/
def Obligations.JpSetsPcToTheAddress : Prop :=
  ∀ (nnn : Addr) (s : State), exec (.jp nnn) s = .next { s with pc := nnn.setWidth 16 }

/-- For every address and state, JP V0 completes with pc equal to nnn + V0 modulo 4096 (the mask is the spec's decision
D4) and all other state unchanged. (40_control_flow.md (JP V0, addr); 92_eei_decisions.md D4) -/
def Obligations.JpV0AddsV0Modulo4096 : Prop :=
  ∀ (nnn : Addr) (s : State), ∃ t, exec (.jpV0 nnn) s = .next t ∧ t = { s with pc := t.pc } ∧
    t.pc.toNat = (nnn.toNat + s.v[0].toNat) % 4096

/-- With at most 15 entries on the stack, CALL completes: the incremented pc becomes the new top, pc is nnn, and nothing
else changes. (40_control_flow.md (CALL addr); 10_state.md section 4) -/
def Obligations.CallPushesTheReturnAddress : Prop :=
  ∀ (nnn : Addr) (s : State), s.stack.length < 16 →
    exec (.call nnn) s = .next { s with stack := s.pc :: s.stack, pc := nnn.setWidth 16 }

/-- A CALL on a full stack takes the fatal condition: halted is set, the report carries code 3, the word and its address;
the stack, the incremented pc, the timers and all else stay, and the cycle has no Timer-Tick and no tone (the spec's
decision D10). (60_exceptions.md section 1 (StackOverflow); 92_eei_decisions.md D10, D11) -/
def Obligations.CallOnFullStackHalts : Prop :=
  (∀ (nnn : Addr) (s : State), 16 ≤ s.stack.length →
    exec (.call nnn) s = .next
      { s with
        halted := some .stackOverflow
        out := { s.out with
          report := some ⟨.stackOverflow, s.wordAt ((s.pc - 2) &&& 0xFFF), (s.pc - 2).setWidth 12, none⟩ } }) ∧
  (∀ (nnn : Addr) (s : State), s.halted = none → 16 ≤ s.stack.length → decode s.bytesAtPc = .instr (.call nnn) →
    step s = .next
      { s with
        pc := (s.pc + 2) &&& 0xFFF
        halted := some .stackOverflow
        out := ⟨false, some ⟨.stackOverflow, s.bytesAtPc, s.pc.setWidth 12, none⟩⟩ })

/-- With the top entry a on the stack, RET completes with a removed and pc equal to a (masked); nothing else changes.
(40_control_flow.md (RET); 10_state.md section 4) -/
def Obligations.RetPopsTheReturnAddress : Prop :=
  ∀ (s : State) (a : Word) (rest : List Word), s.stack = a :: rest →
    exec .ret s = .next { s with pc := a &&& 0xFFF, stack := rest }

/-- A RET on an empty stack takes the fatal condition: halted is set, the report carries code 2, the word and its address;
pc keeps the fetch increment, the timers and all else stay, and the cycle has no Timer-Tick and no tone (the spec's
decision D11). (60_exceptions.md section 1 (StackUnderflow); 92_eei_decisions.md D11) -/
def Obligations.RetOnEmptyStackHalts : Prop :=
  (∀ s : State, s.stack = [] →
    exec .ret s = .next
      { s with
        halted := some .stackUnderflow
        out := { s.out with
          report := some ⟨.stackUnderflow, s.wordAt ((s.pc - 2) &&& 0xFFF), (s.pc - 2).setWidth 12, none⟩ } }) ∧
  (∀ s : State, s.halted = none → s.stack = [] → decode s.bytesAtPc = .instr .ret →
    step s = .next
      { s with
        pc := (s.pc + 2) &&& 0xFFF
        halted := some .stackUnderflow
        out := ⟨false, some ⟨.stackUnderflow, s.bytesAtPc, s.pc.setWidth 12, none⟩⟩ })

/-- For every register, byte and state both skips complete; pc moves on by 2 (masked) iff the condition holds, and nothing
else changes. (R103; R104) -/
def Obligations.SkipsOnAByteCompareWithIt : Prop :=
  ∀ (x : Reg) (kk : Byte) (s : State),
    exec (.seByte x kk) s = .next { s with pc := if s.v[x] = kk then (s.pc + 2) &&& 0xFFF else s.pc } ∧
    exec (.sneByte x kk) s = .next { s with pc := if s.v[x] ≠ kk then (s.pc + 2) &&& 0xFFF else s.pc }

/-- For every pair of registers and every state both skips complete; pc moves on by 2 (masked) iff V[x] = V[y], or V[x] ≠
V[y], and nothing else changes; and every word 5xyN and 9xyN is such a skip (that N is ignored is the spec's decision
D2). (40_control_flow.md (SE Vx, Vy; SNE Vx, Vy); 92_eei_decisions.md D2) -/
def Obligations.SkipsOnRegistersCompareTheTwo : Prop :=
  ∀ (x y : Reg) (n : BitVec 4) (s : State),
    exec (.seReg x y) s = .next { s with pc := if s.v[x] = s.v[y] then (s.pc + 2) &&& 0xFFF else s.pc } ∧
    exec (.sneReg x y) s = .next { s with pc := if s.v[x] ≠ s.v[y] then (s.pc + 2) &&& 0xFFF else s.pc } ∧
    decode (0x5#4 ++ BitVec.ofFin (w := 4) x ++ BitVec.ofFin (w := 4) y ++ n) = .instr (.seReg x y) ∧
    decode (0x9#4 ++ BitVec.ofFin (w := 4) x ++ BitVec.ofFin (w := 4) y ++ n) = .instr (.sneReg x y)

/-- For each of the six skips at pc of a running core, the step moves pc by +4 modulo 4096 if the skip's condition holds
in the state before the step, and by +2 modulo 4096 if not. (R109) -/
def Obligations.SkipsAdvancePcByFourOrTwo : Prop :=
  ∀ (s : State) (i : Instr) (c : Bool), s.halted = none → decode s.bytesAtPc = .instr i →
    skipCondition i s = some c →
    ∃ t, step s = .next t ∧ t.pc.toNat = (s.pc.toNat + if c then 4 else 2) % 4096

/-! ## Arithmetic and logic -/

/-- For every register, byte and state the three complete; Vx is the byte, the sum with the byte modulo 256, or V[y]; no
other register (VF only if x is F) and no other state changes. (R120; R121; R122) -/
def Obligations.LoadsAndAddImmediateWriteOneRegister : Prop :=
  ∀ (x y : Reg) (kk : Byte) (s : State),
    (∃ t, exec (.ldByte x kk) s = .next t ∧ OnlyRegs [x] s t ∧ t.v[x] = kk) ∧
    (∃ t, exec (.addByte x kk) s = .next t ∧ OnlyRegs [x] s t ∧
      t.v[x].toNat = (s.v[x].toNat + kk.toNat) % 256) ∧
    (∃ t, exec (.ldReg x y) s = .next t ∧ OnlyRegs [x] s t ∧ t.v[x] = s.v[y])

/-- For every pair of registers and every state the three complete; each bit of Vx is the or, and, exclusive or of the two
old bits; no other register changes, VF among them unless x is F (the spec's decision D8), and no other state.
(41_arithmetic.md section 3; 92_eei_decisions.md D8) -/
def Obligations.LogicOperationsAreBitwiseAndLeaveVfAlone : Prop :=
  ∀ (x y : Reg) (s : State),
    (∃ t, exec (.orReg x y) s = .next t ∧ OnlyRegs [x] s t ∧
      ∀ k, t.v[x].getLsbD k = (s.v[x].getLsbD k || s.v[y].getLsbD k)) ∧
    (∃ t, exec (.andReg x y) s = .next t ∧ OnlyRegs [x] s t ∧
      ∀ k, t.v[x].getLsbD k = (s.v[x].getLsbD k && s.v[y].getLsbD k)) ∧
    (∃ t, exec (.xorReg x y) s = .next t ∧ OnlyRegs [x] s t ∧
      ∀ k, t.v[x].getLsbD k = (s.v[x].getLsbD k ^^ s.v[y].getLsbD k))

/-- For every pair of registers and every state ADD completes; VF is 1 if the old values sum to over 255 and 0 if not,
also when x or y is F; Vx is the sum modulo 256 when x is not F (VF written last is the spec's decision D5); nothing
else changes. (41_arithmetic.md sections 1, 3; 92_eei_decisions.md D5) -/
def Obligations.AddSetsCarryLast : Prop :=
  ∀ (x y : Reg) (s : State), ∃ t, exec (.addReg x y) s = .next t ∧ OnlyRegs [x, vf] s t ∧
    (x ≠ vf → t.v[x].toNat = (s.v[x].toNat + s.v[y].toNat) % 256) ∧
    t.v[vf] = (if s.v[x].toNat + s.v[y].toNat > 255 then 1 else 0)

/-- For every pair of registers and every state both complete; Vx is V[x] - V[y], or V[y] - V[x], modulo 256 when x is not
F; VF is 1 iff the value subtracted from is strictly greater, so 0 when they are equal (90_conflicts.md C2; SUBN is
the spec's decision D6, VF written last D5); nothing else changes. (41_arithmetic.md sections 1, 3; 90_conflicts.md
C2; 92_eei_decisions.md D5, D6) -/
def Obligations.SubtractionsSetStrictNotBorrow : Prop :=
  ∀ (x y : Reg) (s : State),
    (∃ t, exec (.subReg x y) s = .next t ∧ OnlyRegs [x, vf] s t ∧
      (x ≠ vf → t.v[x].toNat = (s.v[x].toNat + 256 - s.v[y].toNat) % 256) ∧
      t.v[vf] = (if s.v[x].toNat > s.v[y].toNat then 1 else 0)) ∧
    (∃ t, exec (.subn x y) s = .next t ∧ OnlyRegs [x, vf] s t ∧
      (x ≠ vf → t.v[x].toNat = (s.v[y].toNat + 256 - s.v[x].toNat) % 256) ∧
      t.v[vf] = (if s.v[y].toNat > s.v[x].toNat then 1 else 0))

/-- For every pair of registers and every state both complete; Vx is halved, or doubled modulo 256, when x is not F; VF is
the old bit 0, or the old bit 7, of Vx; V[y] plays no part and nothing else changes (the spec's decisions D5 and D7).
(41_arithmetic.md sections 1, 3; 92_eei_decisions.md D5, D7) -/
def Obligations.ShiftsMoveVxByOneBit : Prop :=
  ∀ (x y : Reg) (s : State),
    (∃ t, exec (.shr x y) s = .next t ∧ OnlyRegs [x, vf] s t ∧
      (x ≠ vf → t.v[x].toNat = s.v[x].toNat / 2) ∧ t.v[vf].toNat = s.v[x].toNat % 2) ∧
    (∃ t, exec (.shl x y) s = .next t ∧ OnlyRegs [x, vf] s t ∧
      (x ≠ vf → t.v[x].toNat = 2 * s.v[x].toNat % 256) ∧ t.v[vf].toNat = s.v[x].toNat / 128)

/-- For every register, byte and state RND completes; Vx is the byte the open source gives for this draw, whatever it is,
with every bit cleared that is 0 in kk (so 0 for kk = 0, the drawn byte for kk = 0xFF); the next draw is another one;
nothing else changes. The free byte is log entry 5, the spec's decision D23. (41_arithmetic.md section 4;
92_eei_decisions.md D23) -/
def Obligations.RndMasksAFreeByte : Prop :=
  ∀ (x : Reg) (kk : Byte) (s : State), ∃ t, exec (.rnd x kk) s = .next t ∧
    t = { s with v := t.v, draws := s.draws + 1 } ∧ (∀ r, r ≠ x → t.v[r] = s.v[r]) ∧
    t.v[x] = Config.randomByte s.draws &&& kk ∧
    (∀ k, kk.getLsbD k = false → t.v[x].getLsbD k = false) ∧ (kk = 0xFF → t.v[x] = Config.randomByte s.draws)

/-! ## Display -/

/-- For every state CLS completes; every cell is false and dirty is set, even when the framebuffer was clear; no register
or other state changes. (42_display.md (CLS)) -/
def Obligations.ClsClearsEveryCellAndSetsDirty : Prop :=
  ∀ s : State, ∃ t, exec .cls s = .next t ∧ t = { s with fb := t.fb, dirty := true } ∧
    ∀ (row : Fin 32) (col : Fin 64), t.fb[row][col] = false

/-- For every pair of registers, height and state the row-by-row, pixel-by-pixel draw completes and is the same as this:
the cell at (row, col) is flipped iff it lies in the 8 columns from V[x] on and the n rows from V[y] on and the bit of
the sprite byte at I + (row - V[y]) (modulo 4096), bit 7 leftmost, is 1; coordinates are the old values, not reduced,
and nothing wraps (the spec's decisions D13 and D14); VF, fb and dirty apart nothing changes, I among it.
(42_display.md (DRW, sprite bit order, clipping); 92_eei_decisions.md D13, D14) -/
def Obligations.DrwXorsTheSpriteOntoTheGrid : Prop :=
  ∀ (x y : Reg) (n : Nat) (s : State), ∃ t, exec (.drw x y n) s = .next t ∧
    t = { s with v := t.v, fb := t.fb, dirty := t.dirty } ∧ (∀ r, r ≠ vf → t.v[r] = s.v[r]) ∧
    ∀ (row : Fin 32) (col : Fin 64), t.fb[row][col] = (s.fb[row][col] ^^ spriteCovers s x y n row col)

/-- For every pair of registers, height and state DRW completes; VF is 0 or 1, and 1 exactly when at least one cell that
was true became false anywhere in this draw; dirty is set afterwards exactly when it was set before or at least one
cell changed. (R154; R155) -/
def Obligations.DrwReportsCollisionAndDirt : Prop :=
  ∀ (x y : Reg) (n : Nat) (s : State), ∃ t, exec (.drw x y n) s = .next t ∧
    (t.v[vf] = 0 ∨ t.v[vf] = 1) ∧
    (t.v[vf] = 1 ↔ ∃ (row : Fin 32) (col : Fin 64), s.fb[row][col] = true ∧ t.fb[row][col] = false) ∧
    (t.dirty = true ↔ s.dirty = true ∨ ∃ (row : Fin 32) (col : Fin 64), t.fb[row][col] ≠ s.fb[row][col])

/-- If the coordinates are the same at the second draw (they can only differ where x or y is F), two draws of the same
sprite in succession leave every cell as it was before the first, and the second draw's VF is 1 iff the first draw set
at least one cell. (42_display.md (two properties); 95_test_vectors.md E3) -/
def Obligations.DrawingTwiceRestoresTheFramebuffer : Prop :=
  ∀ (x y : Reg) (n : Nat) (s t u : State), exec (.drw x y n) s = .next t →
    t.v[x] = s.v[x] → t.v[y] = s.v[y] → exec (.drw x y n) t = .next u →
    u.fb = s.fb ∧
    (u.v[vf] = 1 ↔ ∃ (row : Fin 32) (col : Fin 64), s.fb[row][col] = false ∧ t.fb[row][col] = true)

/-- After a clear and one draw, the number of true cells equals the number of pairs of a sprite row and a column whose bit
is 1 and whose place falls within the 64 by 32 grid, and there was no collision: no prior state contaminates the draw.
That bit 7 of a sprite byte is its leftmost column is the spec's decision D13, from general knowledge (R152), and that
the coordinates are not reduced and nothing wraps is D14 (R153); log entry 6. (42_display.md (two properties, sprite
bit order, clipping); 92_eei_decisions.md D13, D14; 95_test_vectors.md E2) -/
def Obligations.DrawAfterClearSetsAsManyCellsAsSpriteBits : Prop :=
  ∀ (x y : Reg) (n : Nat) (s t u : State), exec .cls s = .next t → exec (.drw x y n) t = .next u →
    u.v[vf] = 0 ∧
    (Finset.univ.filter fun p : Fin 32 × Fin 64 => u.fb[p.1][p.2] = true).card =
      (Finset.univ.filter fun q : Fin n × Fin 8 =>
        (s.mem.read ((s.i.toNat + q.1.val) % 4096)).getLsbD (7 - q.2.val) = true ∧
        s.v[x].toNat + q.2.val < 64 ∧ s.v[y].toNat + q.1.val < 32).card

/-! ## Input and timers -/

/-- For every register and state both complete; pc moves on by 2 (masked) iff the key whose index is the low nibble of
V[x] is down, or is up, and nothing else changes. (R170; R171; R176) -/
def Obligations.KeySkipsTestTheLowNibble : Prop :=
  ∀ (x : Reg) (s : State),
    exec (.skp x) s = .next
      { s with pc := if s.key[s.v[x].toNat % 16]'(Nat.mod_lt _ (by decide)) = true then (s.pc + 2) &&& 0xFFF else s.pc } ∧
    exec (.sknp x) s = .next
      { s with pc := if s.key[s.v[x].toNat % 16]'(Nat.mod_lt _ (by decide)) = false then (s.pc + 2) &&& 0xFFF else s.pc }

/-- For every register and state the three complete; Vx is DT, DT is V[x], ST is V[x]; no flag and no other state changes
(the Timer-Tick follows in the same cycle). (43_input_timers.md (LD Vx, DT; LD DT, Vx; LD ST, Vx)) -/
def Obligations.TimerInstructionsMoveOneByte : Prop :=
  ∀ (x : Reg) (s : State),
    (∃ t, exec (.ldVDt x) s = .next t ∧ OnlyRegs [x] s t ∧ t.v[x] = s.dt) ∧
    exec (.ldDtV x) s = .next { s with dt := s.v[x] } ∧
    exec (.ldStV x) s = .next { s with st := s.v[x] }

/-- Over a whole cycle LD Vx, DT stores the DT from before the Timer-Tick, which then counts it down; LD DT and LD ST
leave the timer one below V[x] (0 stays 0); and LD ST emits the tone in its own cycle iff V[x] is 1, so writing 0
emits none. (43_input_timers.md (corner cases); 60_exceptions.md section 3) -/
def Obligations.TimerInstructionsWithinTheirCycle : Prop :=
  ∀ (s : State) (x : Reg), s.halted = none →
    (decode s.bytesAtPc = .instr (.ldVDt x) → ∃ t, step s = .next t ∧ t.v[x] = s.dt ∧ t.dt.toNat = s.dt.toNat - 1) ∧
    (decode s.bytesAtPc = .instr (.ldDtV x) → ∃ t, step s = .next t ∧ t.dt.toNat = s.v[x].toNat - 1) ∧
    (decode s.bytesAtPc = .instr (.ldStV x) → ∃ t, step s = .next t ∧ t.st.toNat = s.v[x].toNat - 1 ∧
      (t.out.tone = true ↔ s.v[x].toNat = 1))

/-- For every register and state LD Vx, K completes: with no key down pc goes back by 2 (masked) and nothing else changes;
with k the least key down Vx is k and nothing else changes. The test is level-sensitive (the spec's decision D21).
(43_input_timers.md (LD Vx, K); 92_eei_decisions.md D21) -/
def Obligations.KeyWaitTakesTheLowestKeyOrRewinds : Prop :=
  (∀ (x : Reg) (s : State), (∀ k : Reg, s.key[k] = false) →
    exec (.ldVK x) s = .next { s with pc := (s.pc - 2) &&& 0xFFF }) ∧
  (∀ (x : Reg) (s : State) (k : Reg), s.key[k] = true → (∀ j, j < k → s.key[j] = false) →
    ∃ t, exec (.ldVK x) s = .next t ∧ OnlyRegs [x] s t ∧ t.v[x].toNat = k.val)

/-- With LD Vx, K at pc of a running core and no key down, the step leaves pc at its 12-bit value from before the cycle
(+2 by the fetch, -2 by the rewind), counts the timers down, can emit the tone, and changes nothing else (that
blocking is the rewind and no flag: 90_conflicts.md C12). (43_input_timers.md (LD Vx, K); 90_conflicts.md C12) -/
def Obligations.BlockedKeyWaitHoldsPcWhileTimersRun : Prop :=
  ∀ (s : State) (x : Reg), s.halted = none → decode s.bytesAtPc = .instr (.ldVK x) →
    (∀ k : Reg, s.key[k] = false) →
    step s = .next
      { s with
        pc := s.pc &&& 0xFFF
        dt := if s.dt = 0 then 0 else s.dt - 1
        st := if s.st = 0 then 0 else s.st - 1
        out := ⟨decide (s.st = 1), none⟩ }

/-! ## Index register and memory -/

/-- For every address, register and state both complete; I is nnn, or the glyph address 5 * (V[x] & 0xF); no flag and no
other state changes. (R190; R192) -/
def Obligations.LdIAndLdFSetTheIndex : Prop :=
  ∀ (nnn : Addr) (x : Reg) (s : State),
    (∃ t, exec (.ldI nnn) s = .next t ∧ t = { s with i := t.i } ∧ t.i.toNat = nnn.toNat) ∧
    (∃ t, exec (.ldF x) s = .next t ∧ t = { s with i := t.i } ∧ t.i.toNat = 5 * (s.v[x].toNat % 16))

/-- For every register and state ADD I completes; I is the sum with the old V[x] modulo 4096, VF is 1 iff the sum is over
0xFFF and 0 if not (writing 0 is the spec's decision D9), also when x is F; no other register and no other state
changes. (44_index_memory.md (ADD I, Vx); 92_eei_decisions.md D5, D9) -/
def Obligations.AddISetsVfOnTwelveBitOverflow : Prop :=
  ∀ (x : Reg) (s : State), ∃ t, exec (.addI x) s = .next t ∧ t = { s with v := t.v, i := t.i } ∧
    (∀ r, r ≠ vf → t.v[r] = s.v[r]) ∧ t.i.toNat = (s.i.toNat + s.v[x].toNat) % 4096 ∧
    t.v[vf] = (if s.i.toNat + s.v[x].toNat > 0xFFF then 1 else 0)

/-- For every register and state LD B completes; the three cells from I on (modulo 4096: AddressesAreReducedModulo4096)
hold the decimal digits of V[x], most significant first; every other byte of memory, I and all registers are
unchanged. (R193) -/
def Obligations.LdBStoresTheThreeDecimalDigits : Prop :=
  ∀ (x : Reg) (s : State), ∃ t, exec (.ldB x) s = .next t ∧ t = { s with mem := t.mem } ∧
    (t.mem.read (cellOf (s.indexed 0))).toNat = s.v[x].toNat / 100 ∧
    (t.mem.read (cellOf (s.indexed 1))).toNat = s.v[x].toNat / 10 % 10 ∧
    (t.mem.read (cellOf (s.indexed 2))).toNat = s.v[x].toNat % 10 ∧
    ∀ a, a ≠ cellOf (s.indexed 0) → a ≠ cellOf (s.indexed 1) → a ≠ cellOf (s.indexed 2) →
      t.mem.read a = s.mem.read a

/-- For every register and state LD [I], Vx completes; for every r up to x the cell of I + r (modulo 4096) holds V[r]; I
is I + x + 1 modulo 4096; every other byte of memory and all registers are unchanged. (R194) -/
def Obligations.LdMemVStoresV0ToVx : Prop :=
  ∀ (x : Reg) (s : State), ∃ t, exec (.ldMemV x) s = .next t ∧ t = { s with mem := t.mem, i := t.i } ∧
    t.i.toNat = (s.i.toNat + x.val + 1) % 4096 ∧
    (∀ r, r ≤ x → t.mem.read (cellOf (s.indexed r.val)) = s.v[r]) ∧
    ∀ a, (∀ r, r ≤ x → a ≠ cellOf (s.indexed r.val)) → t.mem.read a = s.mem.read a

/-- For every register and state LD Vx, [I] completes; for every r up to x, V[r] is the byte in the cell of I + r (modulo
4096); I is I + x + 1 modulo 4096; memory and the registers above x (so VF unless x is F) are unchanged. (R195) -/
def Obligations.LdVMemLoadsV0ToVx : Prop :=
  ∀ (x : Reg) (s : State), ∃ t, exec (.ldVMem x) s = .next t ∧ t = { s with v := t.v, i := t.i } ∧
    t.i.toNat = (s.i.toNat + x.val + 1) % 4096 ∧
    (∀ r, r ≤ x → t.v[r] = s.mem.read (cellOf (s.indexed r.val))) ∧ ∀ r, x < r → t.v[r] = s.v[r]

/-- If V0 to Vx are stored at I, the registers then overwritten with anything and I set back, loading V0 to Vx gives their
old values (also where the bytes wrap past 0xFFF), leaves the registers above x, and I advances as it did.
(44_index_memory.md (LD [I], Vx; LD Vx, [I])) -/
def Obligations.LoadAfterStoreRestoresTheRegisters : Prop :=
  ∀ (x : Reg) (s t u : State) (w : Vector Byte 16), exec (.ldMemV x) s = .next t →
    exec (.ldVMem x) { t with v := w, i := s.i } = .next u →
    (∀ r, r ≤ x → u.v[r] = s.v[r]) ∧ (∀ r, x < r → u.v[r] = w[r]) ∧ u.i = t.i ∧ u.mem = t.mem

/-- If LD [I], Vx stores V[k] and V[k + 1] over the two bytes at the next pc, the next cycle's fetched word is V[k]
followed by V[k + 1]: self-modifying code takes effect at once (the spec's decision D18). (20_memory.md section 7;
70_reset_and_hazards.md section 3; 92_eei_decisions.md D18) -/
def Obligations.StoredBytesAreTheNextWordFetched : Prop :=
  ∀ (s t : State) (x : Reg) (k : Fin 15), s.halted = none → decode s.bytesAtPc = .instr (.ldMemV x) →
    step s = .next t → k.val < x.val → cellOf (s.indexed k.val) = t.pc.toNat % 4096 →
    t.fetchWord = s.v[k.val] ++ s.v[k.val + 1]

/-! ## Every host move keeps states well formed -/

/-- From every session, reached or not, whose state has pc, I and stack entries below 4096, at most 16 stack entries and
canonical memory, each allowed host move (reset, load, set keys, tick, read the framebuffer, clear dirty) gives a
session whose state is again so. That pc and the stack hold masked values is the spec's decision D4 and the bound of
16 its D10; which moves are allowed when is log entry 10. (10_state.md sections 2, 3, 4; 20_memory.md section 1;
60_exceptions.md section 5 (host interface); 92_eei_decisions.md D4, D10, D24, D25) -/
def Obligations.HostMovesKeepStatesWellFormed : Prop :=
  ∀ (m : HostMove) (c d : Session) (r : Reply), c.state.wf → hostMove m c = some (d, r) → d.state.wf
end

