-- ==== Sys2Proof/Laws/Memory.lean ====
section
/-! SUPPORT. Laws of memory: a read after a write, what a write leaves alone, and that every operation keeps the canonical form. -/

namespace Sys2Proof.Machine

theorem Memory.read_eq_unlisted (m : Memory) (a : Nat) (h : ∀ c ∈ m, c.1 ≠ a) : m.read a = Memory.unlisted a := by
  induction m with
  | nil => rfl
  | cons c rest ih =>
    obtain ⟨k, b⟩ := c
    simp only [List.mem_cons, forall_eq_or_imp] at h
    simp [Memory.read, h.1, ih h.2]

theorem Memory.read_erase_same (m : Memory) (a : Nat) : (m.erase a).read a = Memory.unlisted a :=
  Memory.read_eq_unlisted _ _ fun c hc => by simpa [Memory.erase] using (List.mem_filter.mp hc).2

theorem Memory.read_erase_other (m : Memory) (a a' : Nat) (h : a' ≠ a) : (m.erase a).read a' = m.read a' := by
  induction m with
  | nil => rfl
  | cons c rest ih =>
    obtain ⟨k, b⟩ := c
    by_cases hk : k = a
    · subst hk
      have : ¬k = a' := fun e => h e.symm
      simpa [Memory.erase, Memory.read, this] using ih
    · simp only [Memory.erase, List.filter_cons, bne_iff_ne, ne_eq, hk, not_false_eq_true, if_true, Memory.read]
      split
      · rfl
      · exact ih

theorem Memory.read_insert (m : Memory) (a a' : Nat) (b : Byte) (h : ∀ c ∈ m, c.1 ≠ a) :
    (m.insert a b).read a' = if a' = a then b else m.read a' := by
  induction m with
  | nil => simp [Memory.insert, Memory.read, eq_comm]
  | cons c rest ih =>
    obtain ⟨k, d⟩ := c
    simp only [List.mem_cons, forall_eq_or_imp] at h
    simp only [Memory.insert]
    split
    · simp [Memory.read, eq_comm]
    · simp only [Memory.read, ih h.2]
      by_cases hk : k = a'
      · simp [hk ▸ h.1, hk]
      · simp [hk]

theorem Memory.not_mem_erase (m : Memory) (a : Nat) : ∀ c ∈ m.erase a, c.1 ≠ a := fun c hc => by
  simpa [Memory.erase] using (List.mem_filter.mp hc).2

/-- A read after a write: the byte written at its address, what was there before everywhere else (R57). -/
@[simp] theorem Memory.read_write (m : Memory) (a a' : Nat) (b : Byte) :
    (m.write a b).read a' = if a' = a then b else m.read a' := by
  unfold Memory.write
  split
  · by_cases h : a' = a
    · subst h; simp_all [Memory.read_erase_same]
    · simp [h, Memory.read_erase_other]
  · rw [Memory.read_insert _ _ _ _ (Memory.not_mem_erase m a)]
    by_cases h : a' = a
    · simp [h]
    · simp [h, Memory.read_erase_other]

/-! ## The canonical form -/

theorem Memory.erase_wf (m : Memory) (a : Nat) (h : m.wf) : (m.erase a).wf :=
  ⟨h.1.sublist List.filter_sublist, fun c hc => h.2 c (List.mem_filter.mp hc).1⟩

theorem Memory.mem_insert (m : Memory) (a : Nat) (b : Byte) (c : Host.Cell) :
    c ∈ m.insert a b ↔ c = (a, b) ∨ c ∈ m := by
  induction m with
  | nil => simp [Memory.insert]
  | cons d rest ih =>
    obtain ⟨k, e⟩ := d
    simp only [Memory.insert]
    split
    · simp
    · simp [ih, or_left_comm]

theorem Memory.insert_wf (m : Memory) (a : Nat) (b : Byte) (h : m.wf) (hn : ∀ c ∈ m, c.1 ≠ a)
    (ha : a < Config.memSize) (hb : b ≠ Memory.unlisted a) : (m.insert a b).wf := by
  refine ⟨?_, fun c hc => ?_⟩
  · induction m with
    | nil => simp [Memory.insert]
    | cons d rest ih =>
      obtain ⟨k, e⟩ := d
      obtain ⟨hp, hall⟩ := h
      rw [List.pairwise_cons] at hp
      simp only [List.mem_cons, forall_eq_or_imp] at hn hall
      simp only [Memory.insert]
      split
      · rename_i hlt
        refine List.Pairwise.cons ?_ (List.Pairwise.cons hp.1 hp.2)
        simp only [List.mem_cons, forall_eq_or_imp]
        exact ⟨hlt, fun c hc => Nat.lt_trans hlt (hp.1 c hc)⟩
      · rename_i hlt
        refine List.Pairwise.cons ?_ (ih ⟨hp.2, hall.2⟩ hn.2)
        intro c hc
        rcases (Memory.mem_insert rest a b c).mp hc with rfl | hc
        · have := hn.1; simp only at this ⊢; omega
        · exact hp.1 c hc
  · rcases (Memory.mem_insert m a b c).mp hc with rfl | hc
    · exact ⟨ha, hb⟩
    · exact h.2 c hc

/-- A write inside the flat store keeps the canonical form. -/
theorem Memory.write_wf (m : Memory) (a : Nat) (b : Byte) (h : m.wf) (ha : a < Config.memSize) : (m.write a b).wf := by
  unfold Memory.write
  split
  · exact Memory.erase_wf m a h
  · exact Memory.insert_wf _ a b (Memory.erase_wf m a h) (Memory.not_mem_erase m a) ha ‹_›

/-- The canonical form is canonical: memories that read alike are equal data. -/
theorem Memory.ext_of_wf (m n : Memory) (hm : m.wf) (hn : n.wf) (h : ∀ a, m.read a = n.read a) : m = n := by
  induction m generalizing n with
  | nil =>
    cases n with
    | nil => rfl
    | cons c rest =>
      have := h c.1
      simp only [Memory.read, if_true] at this
      exact absurd this.symm (hn.2 c (by simp)).2
  | cons c rest ih =>
    cases n with
    | nil =>
      have := h c.1
      simp only [Memory.read, if_true] at this
      exact absurd this (hm.2 c (by simp)).2
    | cons d rest' =>
      obtain ⟨k, b⟩ := c
      obtain ⟨l, e⟩ := d
      have hpm := List.pairwise_cons.mp hm.1
      have hpn := List.pairwise_cons.mp hn.1
      have unl : ∀ (r : Memory) (j : Nat), (∀ c ∈ r, j < c.1) → r.read j = Memory.unlisted j := fun r j hj =>
        Memory.read_eq_unlisted r j fun c hc => Nat.ne_of_gt (hj c hc)
      rcases Nat.lt_trichotomy k l with hkl | hkl | hkl
      · have := h k
        simp only [Memory.read, if_true, Nat.ne_of_gt hkl, if_false] at this
        rw [unl rest' k fun c hc => Nat.lt_trans hkl (hpn.1 c hc)] at this
        exact absurd this (hm.2 (k, b) (by simp)).2
      · subst hkl
        have hb := h k
        simp only [Memory.read, if_true] at hb
        subst hb
        have hr := ih rest' ⟨hpm.2, fun c hc => hm.2 c (by simp [hc])⟩ ⟨hpn.2, fun c hc => hn.2 c (by simp [hc])⟩
          fun a => by
            by_cases ha : k = a
            · subst ha; rw [unl rest k hpm.1, unl rest' k hpn.1]
            · simpa [Memory.read, ha] using h a
        rw [hr]
      · have := h l
        simp only [Memory.read, if_true, Nat.ne_of_gt hkl, if_false] at this
        rw [unl rest l fun c hc => Nat.lt_trans hkl (hpm.1 c hc)] at this
        exact absurd this.symm (hn.2 (l, e) (by simp)).2

/-! ## Addresses (R51) -/

/-- Every address names a cell of the flat store: it is reduced modulo 4096. -/
theorem cellOf_eq_mod (a : Word) : cellOf a = a.toNat % 4096 := by
  rw [cellOf, BitVec.toNat_and]
  exact Nat.and_two_pow_sub_one_eq_mod a.toNat 12

theorem cellOf_lt (a : Word) : cellOf a < Config.memSize := by rw [cellOf_eq_mod]; exact Nat.mod_lt _ (by decide)

/-- The data address `I + k` modulo 4096. -/
theorem cellOf_indexed (s : State) (k : Nat) : cellOf (s.indexed k) = (s.i.toNat + k) % 4096 := by
  rw [cellOf_eq_mod, State.indexed, BitVec.toNat_add, BitVec.toNat_ofNat]
  omega

theorem Memory.store_wf (m : Memory) (a : Word) (b : Byte) (h : m.wf) : (m.store a b).wf :=
  Memory.write_wf m _ b h (cellOf_lt a)

@[simp] theorem Memory.read_store (m : Memory) (a : Word) (a' : Nat) (b : Byte) :
    (m.store a b).read a' = if a' = cellOf a then b else m.read a' := Memory.read_write m _ _ _

@[simp] theorem State.memRead_memWrite (s : State) (a a' : Word) (b : Byte) :
    (s.memWrite a b).memRead a' = if cellOf a' = cellOf a then b else s.memRead a' := Memory.read_store _ _ _ _

/-- A loaded image stands at its addresses, and every other address is as before (R231). -/
theorem Memory.read_writeFrom (m : Memory) (a a' : Nat) (image : List Byte) :
    (m.writeFrom a image).read a' = if h : a ≤ a' ∧ a' - a < image.length then image[a' - a] else m.read a' := by
  induction image generalizing m a with
  | nil => simp [Memory.writeFrom]
  | cons b rest ih =>
    rw [Memory.writeFrom, ih, Memory.read_write]
    by_cases h : a + 1 ≤ a' ∧ a' - (a + 1) < rest.length
    · have h' : a ≤ a' ∧ a' - a < (b :: rest).length := by simp only [List.length_cons]; omega
      rw [dif_pos h, dif_pos h']
      have : a' - a = (a' - (a + 1)) + 1 := by omega
      simp [this]
    · rw [dif_neg h]
      by_cases e : a' = a
      · subst e; simp
      · have h' : ¬(a ≤ a' ∧ a' - a < (b :: rest).length) := by simp only [List.length_cons]; omega
        rw [dif_neg h', if_neg e]

theorem Memory.writeFrom_wf (m : Memory) (a : Nat) (image : List Byte) (h : m.wf)
    (ha : a + image.length ≤ Config.memSize) : (m.writeFrom a image).wf := by
  induction image generalizing m a with
  | nil => exact h
  | cons b rest ih =>
    simp only [List.length_cons] at ha
    exact ih _ _ (Memory.write_wf m a b h (by omega)) (by omega)

/-- Reset memory is in the canonical form. -/
theorem reset_mem_wf : State.reset.mem.wf := by decide

end Sys2Proof.Machine
end

