-- ==== Sys2Proof/Laws/State.lean ====
section
/-! SUPPORT. One lemma per field per update of State, so that no proof unfolds a record update. -/

namespace Sys2Proof.Machine

variable (s : State)

/-! ### setV -/

@[simp] theorem State.setV_v (x : Reg) (b : Byte) : (s.setV x b).v = s.v.set x b := rfl
@[simp] theorem State.setV_i (x : Reg) (b : Byte) : (s.setV x b).i = s.i := rfl
@[simp] theorem State.setV_pc (x : Reg) (b : Byte) : (s.setV x b).pc = s.pc := rfl
@[simp] theorem State.setV_stack (x : Reg) (b : Byte) : (s.setV x b).stack = s.stack := rfl
@[simp] theorem State.setV_dt (x : Reg) (b : Byte) : (s.setV x b).dt = s.dt := rfl
@[simp] theorem State.setV_st (x : Reg) (b : Byte) : (s.setV x b).st = s.st := rfl
@[simp] theorem State.setV_mem (x : Reg) (b : Byte) : (s.setV x b).mem = s.mem := rfl
@[simp] theorem State.setV_fb (x : Reg) (b : Byte) : (s.setV x b).fb = s.fb := rfl
@[simp] theorem State.setV_dirty (x : Reg) (b : Byte) : (s.setV x b).dirty = s.dirty := rfl
@[simp] theorem State.setV_key (x : Reg) (b : Byte) : (s.setV x b).key = s.key := rfl
@[simp] theorem State.setV_halted (x : Reg) (b : Byte) : (s.setV x b).halted = s.halted := rfl
@[simp] theorem State.setV_out (x : Reg) (b : Byte) : (s.setV x b).out = s.out := rfl
@[simp] theorem State.setV_draws (x : Reg) (b : Byte) : (s.setV x b).draws = s.draws := rfl

/-! ### setI -/

@[simp] theorem State.setI_v (a : Word) : (s.setI a).v = s.v := rfl
@[simp] theorem State.setI_i (a : Word) : (s.setI a).i = a &&& Config.addrMask := rfl
@[simp] theorem State.setI_pc (a : Word) : (s.setI a).pc = s.pc := rfl
@[simp] theorem State.setI_stack (a : Word) : (s.setI a).stack = s.stack := rfl
@[simp] theorem State.setI_dt (a : Word) : (s.setI a).dt = s.dt := rfl
@[simp] theorem State.setI_st (a : Word) : (s.setI a).st = s.st := rfl
@[simp] theorem State.setI_mem (a : Word) : (s.setI a).mem = s.mem := rfl
@[simp] theorem State.setI_fb (a : Word) : (s.setI a).fb = s.fb := rfl
@[simp] theorem State.setI_dirty (a : Word) : (s.setI a).dirty = s.dirty := rfl
@[simp] theorem State.setI_key (a : Word) : (s.setI a).key = s.key := rfl
@[simp] theorem State.setI_halted (a : Word) : (s.setI a).halted = s.halted := rfl
@[simp] theorem State.setI_out (a : Word) : (s.setI a).out = s.out := rfl
@[simp] theorem State.setI_draws (a : Word) : (s.setI a).draws = s.draws := rfl

/-! ### setPc -/

@[simp] theorem State.setPc_v (a : Word) : (s.setPc a).v = s.v := rfl
@[simp] theorem State.setPc_i (a : Word) : (s.setPc a).i = s.i := rfl
@[simp] theorem State.setPc_pc (a : Word) : (s.setPc a).pc = a &&& Config.addrMask := rfl
@[simp] theorem State.setPc_stack (a : Word) : (s.setPc a).stack = s.stack := rfl
@[simp] theorem State.setPc_dt (a : Word) : (s.setPc a).dt = s.dt := rfl
@[simp] theorem State.setPc_st (a : Word) : (s.setPc a).st = s.st := rfl
@[simp] theorem State.setPc_mem (a : Word) : (s.setPc a).mem = s.mem := rfl
@[simp] theorem State.setPc_fb (a : Word) : (s.setPc a).fb = s.fb := rfl
@[simp] theorem State.setPc_dirty (a : Word) : (s.setPc a).dirty = s.dirty := rfl
@[simp] theorem State.setPc_key (a : Word) : (s.setPc a).key = s.key := rfl
@[simp] theorem State.setPc_halted (a : Word) : (s.setPc a).halted = s.halted := rfl
@[simp] theorem State.setPc_out (a : Word) : (s.setPc a).out = s.out := rfl
@[simp] theorem State.setPc_draws (a : Word) : (s.setPc a).draws = s.draws := rfl

/-! ### memWrite -/

@[simp] theorem State.memWrite_v (a : Word) (b : Byte) : (s.memWrite a b).v = s.v := rfl
@[simp] theorem State.memWrite_i (a : Word) (b : Byte) : (s.memWrite a b).i = s.i := rfl
@[simp] theorem State.memWrite_pc (a : Word) (b : Byte) : (s.memWrite a b).pc = s.pc := rfl
@[simp] theorem State.memWrite_stack (a : Word) (b : Byte) : (s.memWrite a b).stack = s.stack := rfl
@[simp] theorem State.memWrite_dt (a : Word) (b : Byte) : (s.memWrite a b).dt = s.dt := rfl
@[simp] theorem State.memWrite_st (a : Word) (b : Byte) : (s.memWrite a b).st = s.st := rfl
@[simp] theorem State.memWrite_mem (a : Word) (b : Byte) : (s.memWrite a b).mem = s.mem.store a b := rfl
@[simp] theorem State.memWrite_fb (a : Word) (b : Byte) : (s.memWrite a b).fb = s.fb := rfl
@[simp] theorem State.memWrite_dirty (a : Word) (b : Byte) : (s.memWrite a b).dirty = s.dirty := rfl
@[simp] theorem State.memWrite_key (a : Word) (b : Byte) : (s.memWrite a b).key = s.key := rfl
@[simp] theorem State.memWrite_halted (a : Word) (b : Byte) : (s.memWrite a b).halted = s.halted := rfl
@[simp] theorem State.memWrite_out (a : Word) (b : Byte) : (s.memWrite a b).out = s.out := rfl
@[simp] theorem State.memWrite_draws (a : Word) (b : Byte) : (s.memWrite a b).draws = s.draws := rfl

/-! ### countDraw -/

@[simp] theorem State.countDraw_v : (s.countDraw).v = s.v := rfl
@[simp] theorem State.countDraw_i : (s.countDraw).i = s.i := rfl
@[simp] theorem State.countDraw_pc : (s.countDraw).pc = s.pc := rfl
@[simp] theorem State.countDraw_stack : (s.countDraw).stack = s.stack := rfl
@[simp] theorem State.countDraw_dt : (s.countDraw).dt = s.dt := rfl
@[simp] theorem State.countDraw_st : (s.countDraw).st = s.st := rfl
@[simp] theorem State.countDraw_mem : (s.countDraw).mem = s.mem := rfl
@[simp] theorem State.countDraw_fb : (s.countDraw).fb = s.fb := rfl
@[simp] theorem State.countDraw_dirty : (s.countDraw).dirty = s.dirty := rfl
@[simp] theorem State.countDraw_key : (s.countDraw).key = s.key := rfl
@[simp] theorem State.countDraw_halted : (s.countDraw).halted = s.halted := rfl
@[simp] theorem State.countDraw_out : (s.countDraw).out = s.out := rfl
@[simp] theorem State.countDraw_draws : (s.countDraw).draws = s.draws + 1 := rfl

/-! ### raiseCondition -/

@[simp] theorem State.raiseCondition_v (c : ConditionCode) (mask : Option Word) : (s.raiseCondition c mask).v = s.v := rfl
@[simp] theorem State.raiseCondition_i (c : ConditionCode) (mask : Option Word) : (s.raiseCondition c mask).i = s.i := rfl
@[simp] theorem State.raiseCondition_pc (c : ConditionCode) (mask : Option Word) : (s.raiseCondition c mask).pc = s.pc := rfl
@[simp] theorem State.raiseCondition_stack (c : ConditionCode) (mask : Option Word) : (s.raiseCondition c mask).stack = s.stack := rfl
@[simp] theorem State.raiseCondition_dt (c : ConditionCode) (mask : Option Word) : (s.raiseCondition c mask).dt = s.dt := rfl
@[simp] theorem State.raiseCondition_st (c : ConditionCode) (mask : Option Word) : (s.raiseCondition c mask).st = s.st := rfl
@[simp] theorem State.raiseCondition_mem (c : ConditionCode) (mask : Option Word) : (s.raiseCondition c mask).mem = s.mem := rfl
@[simp] theorem State.raiseCondition_fb (c : ConditionCode) (mask : Option Word) : (s.raiseCondition c mask).fb = s.fb := rfl
@[simp] theorem State.raiseCondition_dirty (c : ConditionCode) (mask : Option Word) : (s.raiseCondition c mask).dirty = s.dirty := rfl
@[simp] theorem State.raiseCondition_key (c : ConditionCode) (mask : Option Word) : (s.raiseCondition c mask).key = s.key := rfl
@[simp] theorem State.raiseCondition_halted (c : ConditionCode) (mask : Option Word) : (s.raiseCondition c mask).halted = c.haltReason.or s.halted := rfl
@[simp] theorem State.raiseCondition_out (c : ConditionCode) (mask : Option Word) : (s.raiseCondition c mask).out = { s.out with report := some ⟨c, s.wordAt s.here, s.here.setWidth 12, mask⟩ } := rfl
@[simp] theorem State.raiseCondition_draws (c : ConditionCode) (mask : Option Word) : (s.raiseCondition c mask).draws = s.draws := rfl

/-! ### timerTick -/

@[simp] theorem State.timerTick_v : (s.timerTick).v = s.v := rfl
@[simp] theorem State.timerTick_i : (s.timerTick).i = s.i := rfl
@[simp] theorem State.timerTick_pc : (s.timerTick).pc = s.pc := rfl
@[simp] theorem State.timerTick_stack : (s.timerTick).stack = s.stack := rfl
@[simp] theorem State.timerTick_dt : (s.timerTick).dt = timerDown s.dt := rfl
@[simp] theorem State.timerTick_st : (s.timerTick).st = timerDown s.st := rfl
@[simp] theorem State.timerTick_mem : (s.timerTick).mem = s.mem := rfl
@[simp] theorem State.timerTick_fb : (s.timerTick).fb = s.fb := rfl
@[simp] theorem State.timerTick_dirty : (s.timerTick).dirty = s.dirty := rfl
@[simp] theorem State.timerTick_key : (s.timerTick).key = s.key := rfl
@[simp] theorem State.timerTick_halted : (s.timerTick).halted = s.halted := rfl
@[simp] theorem State.timerTick_out : (s.timerTick).out = { s.out with tone := decide (s.st = 1) } := rfl
@[simp] theorem State.timerTick_draws : (s.timerTick).draws = s.draws := rfl

/-! ### fetch -/

@[simp] theorem State.fetch_v : (s.fetch).v = s.v := rfl
@[simp] theorem State.fetch_i : (s.fetch).i = s.i := rfl
@[simp] theorem State.fetch_pc : (s.fetch).pc = (s.pc + 2) &&& Config.addrMask := rfl
@[simp] theorem State.fetch_stack : (s.fetch).stack = s.stack := rfl
@[simp] theorem State.fetch_dt : (s.fetch).dt = s.dt := rfl
@[simp] theorem State.fetch_st : (s.fetch).st = s.st := rfl
@[simp] theorem State.fetch_mem : (s.fetch).mem = s.mem := rfl
@[simp] theorem State.fetch_fb : (s.fetch).fb = s.fb := rfl
@[simp] theorem State.fetch_dirty : (s.fetch).dirty = s.dirty := rfl
@[simp] theorem State.fetch_key : (s.fetch).key = s.key := rfl
@[simp] theorem State.fetch_halted : (s.fetch).halted = s.halted := rfl
@[simp] theorem State.fetch_out : (s.fetch).out = Out.none := rfl
@[simp] theorem State.fetch_draws : (s.fetch).draws = s.draws := rfl

/-! ### haltedTick -/

@[simp] theorem State.haltedTick_v : (s.haltedTick).v = s.v := rfl
@[simp] theorem State.haltedTick_i : (s.haltedTick).i = s.i := rfl
@[simp] theorem State.haltedTick_pc : (s.haltedTick).pc = s.pc := rfl
@[simp] theorem State.haltedTick_stack : (s.haltedTick).stack = s.stack := rfl
@[simp] theorem State.haltedTick_dt : (s.haltedTick).dt = s.dt := rfl
@[simp] theorem State.haltedTick_st : (s.haltedTick).st = s.st := rfl
@[simp] theorem State.haltedTick_mem : (s.haltedTick).mem = s.mem := rfl
@[simp] theorem State.haltedTick_fb : (s.haltedTick).fb = s.fb := rfl
@[simp] theorem State.haltedTick_dirty : (s.haltedTick).dirty = s.dirty := rfl
@[simp] theorem State.haltedTick_key : (s.haltedTick).key = s.key := rfl
@[simp] theorem State.haltedTick_halted : (s.haltedTick).halted = s.halted := rfl
@[simp] theorem State.haltedTick_out : (s.haltedTick).out = Out.none := rfl
@[simp] theorem State.haltedTick_draws : (s.haltedTick).draws = s.draws := rfl

/-! ### setResultThenFlag -/

@[simp] theorem State.setResultThenFlag_v (x : Reg) (r f : Byte) : (s.setResultThenFlag x r f).v = (s.v.set x r).set vf f := rfl
@[simp] theorem State.setResultThenFlag_i (x : Reg) (r f : Byte) : (s.setResultThenFlag x r f).i = s.i := rfl
@[simp] theorem State.setResultThenFlag_pc (x : Reg) (r f : Byte) : (s.setResultThenFlag x r f).pc = s.pc := rfl
@[simp] theorem State.setResultThenFlag_stack (x : Reg) (r f : Byte) : (s.setResultThenFlag x r f).stack = s.stack := rfl
@[simp] theorem State.setResultThenFlag_dt (x : Reg) (r f : Byte) : (s.setResultThenFlag x r f).dt = s.dt := rfl
@[simp] theorem State.setResultThenFlag_st (x : Reg) (r f : Byte) : (s.setResultThenFlag x r f).st = s.st := rfl
@[simp] theorem State.setResultThenFlag_mem (x : Reg) (r f : Byte) : (s.setResultThenFlag x r f).mem = s.mem := rfl
@[simp] theorem State.setResultThenFlag_fb (x : Reg) (r f : Byte) : (s.setResultThenFlag x r f).fb = s.fb := rfl
@[simp] theorem State.setResultThenFlag_dirty (x : Reg) (r f : Byte) : (s.setResultThenFlag x r f).dirty = s.dirty := rfl
@[simp] theorem State.setResultThenFlag_key (x : Reg) (r f : Byte) : (s.setResultThenFlag x r f).key = s.key := rfl
@[simp] theorem State.setResultThenFlag_halted (x : Reg) (r f : Byte) : (s.setResultThenFlag x r f).halted = s.halted := rfl
@[simp] theorem State.setResultThenFlag_out (x : Reg) (r f : Byte) : (s.setResultThenFlag x r f).out = s.out := rfl
@[simp] theorem State.setResultThenFlag_draws (x : Reg) (r f : Byte) : (s.setResultThenFlag x r f).draws = s.draws := rfl

end Sys2Proof.Machine
end

