-- ==== Sys2Proof/Laws/Ops.lean ====
section
/-! SUPPORT. One lemma per shared operation: registers, masked writes, skips, the stack, the framebuffer and the draw, the input vector. -/

namespace Sys2Proof.Machine

/-! ## Masks -/

theorem toNat_and_mask (a : Word) : (a &&& Config.addrMask).toNat = a.toNat % 4096 := cellOf_eq_mod a

theorem toNat_and_mask_lt (a : Word) : (a &&& Config.addrMask).toNat < 4096 := by
  rw [toNat_and_mask]; exact Nat.mod_lt _ (by decide)

theorem and_mask_of_lt (a : Word) (h : a.toNat < 4096) : a &&& Config.addrMask = a :=
  BitVec.eq_of_toNat_eq (by rw [toNat_and_mask, Nat.mod_eq_of_lt h])

theorem toNat_zextAddr (nnn : Addr) : (zextAddr nnn).toNat = nnn.toNat := by
  rw [zextAddr, BitVec.toNat_setWidth]; have := nnn.isLt; omega

theorem toNat_zextByte (b : Byte) : (zextByte b).toNat = b.toNat := by
  rw [zextByte, BitVec.toNat_setWidth]; have := b.isLt; omega

/-- An instruction's address needs no masking. -/
@[simp] theorem zextAddr_and_mask (nnn : Addr) : zextAddr nnn &&& Config.addrMask = zextAddr nnn :=
  and_mask_of_lt _ (by rw [toNat_zextAddr]; exact nnn.isLt)

theorem val_lowNibble (b : Byte) : (lowNibble b).val = b.toNat % 16 := by
  simp [lowNibble, BitVec.extractLsb']

/-! ## Registers -/

@[simp] theorem State.getV_setV (s : State) (x y : Reg) (b : Byte) :
    (s.setV x b).getV y = if y = x then b else s.getV y := by
  simp only [State.getV, State.setV, Fin.getElem_fin, Vector.getElem_set, Fin.ext_iff, eq_comm]

/-- Reading a register after a result and a flag are written: VF holds the flag, whatever the destination is (R132). -/
theorem State.getV_setResultThenFlag (s : State) (x y : Reg) (r f : Byte) :
    (s.setResultThenFlag x r f).getV y = if y = vf then f else if y = x then r else s.getV y := by
  simp [State.setResultThenFlag]

/-! ## Skips and the stack -/

/-- Everything a skip can do (R109). -/
theorem State.skipIf_eq (s : State) (c : Bool) :
    s.skipIf c = { s with pc := if c then (s.pc + 2) &&& Config.addrMask else s.pc } := by
  cases c <;> rfl

/-- Everything a push can do (R30). -/
theorem State.pushOr_cases (s : State) (a : Word) (k : State → State) :
    (s.stack.length < 16 ∧ s.pushOr a k = k { s with stack := a :: s.stack }) ∨
      (16 ≤ s.stack.length ∧ s.pushOr a k = s.raiseCondition .stackOverflow none) := by
  unfold State.pushOr
  split
  · exact .inl ⟨‹_›, rfl⟩
  · exact .inr ⟨Nat.le_of_not_lt ‹_›, rfl⟩

/-- Everything a pop can do (R31). -/
theorem State.popOr_cases (s : State) (k : Word → State → State) :
    (∃ a rest, s.stack = a :: rest ∧ s.popOr k = k a { s with stack := rest }) ∨
      (s.stack = [] ∧ s.popOr k = s.raiseCondition .stackUnderflow none) := by
  unfold State.popOr
  split
  · exact .inr ⟨‹_›, rfl⟩
  · exact .inl ⟨_, _, ‹_›, rfl⟩

/-! ## The word at pc -/

theorem cellOf_succ (a : Word) : cellOf (a + 1) = (a.toNat + 1) % 4096 := by
  rw [cellOf_eq_mod, BitVec.toNat_add]
  simp

/-- Fetch reads the two bytes at pc, big-endian, both addresses modulo 4096 (R54, R85). -/
theorem State.fetchWord_eq (s : State) : s.fetchWord = s.bytesAtPc := by
  rw [State.fetchWord, State.wordAt, composeWord, State.bytesAtPc, State.memRead, State.memRead, cellOf_eq_mod,
    cellOf_succ]

/-- `wordAt` sees an address only modulo 4096. -/
theorem State.wordAt_congr (s t : State) (a b : Word) (hm : s.mem = t.mem) (h : a.toNat % 4096 = b.toNat % 4096) :
    s.wordAt a = t.wordAt b := by
  simp only [State.wordAt, State.memRead, cellOf_succ, hm]
  rw [cellOf_eq_mod, cellOf_eq_mod, h, Nat.add_mod a.toNat, Nat.add_mod b.toNat, h]

/-- After Fetch the executing instruction's address is pc as it was (R28). -/
theorem State.here_fetch (s : State) : s.fetch.here = s.pc &&& Config.addrMask := by
  apply BitVec.eq_of_toNat_eq
  rw [State.here, State.fetch_pc, toNat_and_mask, toNat_and_mask, BitVec.toNat_sub, toNat_and_mask, BitVec.toNat_add]
  have : (2 : Word).toNat = 2 := rfl
  have := s.pc.isLt
  omega

/-- While it executes, the word at the executing instruction's address is the word that was fetched (R214). -/
theorem State.wordAt_here_fetch (s : State) : s.fetch.wordAt s.fetch.here = s.fetchWord := by
  rw [State.here_fetch]
  exact State.wordAt_congr _ _ _ _ (by simp) (by rw [toNat_and_mask]; omega)

/-! ## The framebuffer -/

@[simp] theorem Framebuffer.cell_clear (row : Fin 32) (col : Fin 64) : Framebuffer.cell Framebuffer.clear row col = false := by
  simp [Framebuffer.cell, Framebuffer.clear]

theorem Framebuffer.cell_toggle (fb : Framebuffer) (r row : Fin 32) (c col : Fin 64) :
    Framebuffer.cell (Framebuffer.toggle fb r c) row col =
      (Framebuffer.cell fb row col ^^ decide (row = r ∧ col = c)) := by
  by_cases hr : row = r
  · subst hr
    by_cases hc : col = c
    · subst hc; simp [Framebuffer.cell, Framebuffer.toggle]
    · have : ¬c.val = col.val := fun e => hc (Fin.ext e.symm)
      simp [Framebuffer.cell, Framebuffer.toggle, this, hc]
  · have : ¬r.val = row.val := fun e => hr (Fin.ext e.symm)
    simp [Framebuffer.cell, Framebuffer.toggle, this, hr]

/-- Framebuffers with the same cells are equal. -/
theorem Framebuffer.ext_cell (f g : Framebuffer) (h : ∀ row col, Framebuffer.cell f row col = Framebuffer.cell g row col) :
    f = g := by
  refine Vector.ext fun r hr => Vector.ext fun c hc => ?_
  exact h ⟨r, hr⟩ ⟨c, hc⟩

/-- What a draw has done to the framebuffer `fb`, with `lit` the cells its sprite bits fell on: each of them is flipped
and no other, `collided` says that one of them was set, `changed` that there is one (R151, R154, R155). -/
structure Draw.Drew (fb : Framebuffer) (lit : Fin 32 → Fin 64 → Bool) (d : Draw) : Prop where
  cell : ∀ row col, Framebuffer.cell d.fb row col = (Framebuffer.cell fb row col ^^ lit row col)
  collided : d.collided = true ↔ ∃ row col, lit row col = true ∧ Framebuffer.cell fb row col = true
  changed : d.changed = true ↔ ∃ row col, lit row col = true

theorem Draw.drew_none (fb : Framebuffer) : Draw.Drew fb (fun _ _ => false) ⟨fb, false, false⟩ :=
  ⟨by simp, by simp, by simp⟩

/-- One pixel more: a cell that no sprite bit has fallen on yet. -/
theorem Draw.Drew.pixel {fb : Framebuffer} {lit : Fin 32 → Fin 64 → Bool} {d : Draw} (h : Draw.Drew fb lit d)
    (px py : Nat) (new : ∀ row col, lit row col = true → ¬(row.val = py ∧ col.val = px)) :
    Draw.Drew fb (fun row col => lit row col || decide (row.val = py ∧ col.val = px)) (d.pixel px py) := by
  unfold Draw.pixel
  split
  · rename_i hin
    have hnew : lit ⟨py, hin.2⟩ ⟨px, hin.1⟩ = false := by
      by_contra hc
      exact new _ _ (by simpa using hc) ⟨rfl, rfl⟩
    have old : Framebuffer.cell d.fb ⟨py, hin.2⟩ ⟨px, hin.1⟩ = Framebuffer.cell fb ⟨py, hin.2⟩ ⟨px, hin.1⟩ := by
      rw [h.cell, hnew, Bool.xor_false]
    refine ⟨fun row col => ?_, ?_, ?_⟩
    · rw [Framebuffer.cell_toggle, h.cell]
      by_cases e : row.val = py ∧ col.val = px
      · have hr : row = ⟨py, hin.2⟩ := Fin.ext e.1
        have hc : col = ⟨px, hin.1⟩ := Fin.ext e.2
        subst hr hc
        simp [hnew]
      · have : ¬(row = ⟨py, hin.2⟩ ∧ col = ⟨px, hin.1⟩) := fun e' => e ⟨congrArg Fin.val e'.1, congrArg Fin.val e'.2⟩
        simp [e, this]
    · simp only [Bool.or_eq_true, h.collided, old, decide_eq_true_eq]
      constructor
      · rintro (⟨row, col, h1, h2⟩ | h2)
        · exact ⟨row, col, .inl h1, h2⟩
        · exact ⟨_, _, .inr ⟨rfl, rfl⟩, h2⟩
      · rintro ⟨row, col, h1 | h1, h2⟩
        · exact .inl ⟨row, col, h1, h2⟩
        · have hr : row = ⟨py, hin.2⟩ := Fin.ext h1.1
          have hc : col = ⟨px, hin.1⟩ := Fin.ext h1.2
          subst hr hc
          exact .inr h2
    · simp only [Bool.or_eq_true, decide_eq_true_eq, true_iff]
      exact ⟨⟨py, hin.2⟩, ⟨px, hin.1⟩, .inr ⟨rfl, rfl⟩⟩
  · rename_i hout
    have out : ∀ (row : Fin 32) (col : Fin 64), ¬(row.val = py ∧ col.val = px) := fun row col e =>
      hout ⟨e.2 ▸ col.isLt, e.1 ▸ row.isLt⟩
    simpa [out] using h

theorem Draw.Drew.congr {fb : Framebuffer} {lit lit' : Fin 32 → Fin 64 → Bool} {d : Draw} (h : Draw.Drew fb lit d)
    (e : ∀ row col, lit row col = lit' row col) : Draw.Drew fb lit' d := by
  have : lit = lit' := funext fun row => funext fun col => e row col
  exact this ▸ h

/-- One sprite row more (R151): the cells of columns `cx` to `cx + 7` of row `py` where the byte has a 1. -/
theorem Draw.Drew.row {fb : Framebuffer} {lit : Fin 32 → Fin 64 → Bool} {d : Draw} (h : Draw.Drew fb lit d)
    (b : Byte) (cx py : Nat) (new : ∀ row col, lit row col = true → row.val ≠ py) :
    Draw.Drew fb
      (fun row col => lit row col ||
        (decide (row.val = py ∧ cx ≤ col.val ∧ col.val < cx + 8) && spriteBit b (col.val - cx)))
      (d.row b cx py) := by
  have upTo : ∀ k, Draw.Drew fb
      (fun row col => lit row col ||
        (decide (row.val = py ∧ cx ≤ col.val ∧ col.val < cx + k) && spriteBit b (col.val - cx)))
      ((List.range k).foldl (fun d c => if spriteBit b c then d.pixel (cx + c) py else d) d) := by
    intro k
    induction k with
    | zero =>
      refine h.congr fun row col => ?_
      have : ¬(cx ≤ col.val ∧ col.val < cx) := by omega
      simp [this]
    | succ k ih =>
      rw [List.range_succ, List.foldl_append, List.foldl_cons, List.foldl_nil]
      by_cases hb : spriteBit b k = true
      · rw [if_pos hb]
        refine (ih.pixel (cx + k) py ?_).congr fun row col => ?_
        · intro row col hl hx
          simp only [Bool.or_eq_true, Bool.and_eq_true, decide_eq_true_eq] at hl
          rcases hl with hl | hl
          · exact new row col hl hx.1
          · omega
        · by_cases hx : col.val = cx + k
          · have : col.val - cx = k := by omega
            by_cases hr : row.val = py <;> simp [hx, hr, hb]
          · have : (row.val = py ∧ cx ≤ col.val ∧ col.val < cx + (k + 1)) ↔
                (row.val = py ∧ cx ≤ col.val ∧ col.val < cx + k) := by omega
            simp [hx, this]
      · rw [if_neg hb]
        refine ih.congr fun row col => ?_
        by_cases hx : col.val = cx + k
        · simp [hx, hb]
        · have : (row.val = py ∧ cx ≤ col.val ∧ col.val < cx + (k + 1)) ↔
              (row.val = py ∧ cx ≤ col.val ∧ col.val < cx + k) := by omega
          simp [this]
  exact upTo 8

/-- The whole draw (R151): exactly the cells inside the sprite's rectangle whose bit is 1 are flipped. -/
theorem Draw.drew_sprite (fb : Framebuffer) (bytes : Nat → Byte) (n cx cy : Nat) :
    Draw.Drew fb
      (fun row col => decide (cx ≤ col.val ∧ col.val < cx + 8 ∧ cy ≤ row.val ∧ row.val < cy + n) &&
        spriteBit (bytes (row.val - cy)) (col.val - cx))
      (Draw.sprite ⟨fb, false, false⟩ bytes n cx cy) := by
  unfold Draw.sprite
  induction n with
  | zero =>
    refine (Draw.drew_none fb).congr fun row col => ?_
    have : ¬(cy ≤ row.val ∧ row.val < cy) := by omega
    simp [this]
  | succ n ih =>
    rw [List.range_succ, List.foldl_append, List.foldl_cons, List.foldl_nil]
    refine (ih.row (bytes n) cx (cy + n) ?_).congr fun row col => ?_
    · intro row col hl
      simp only [Bool.and_eq_true, decide_eq_true_eq] at hl
      omega
    · by_cases hr : row.val = cy + n
      · have h1 : row.val - cy = n := by omega
        simp [hr]
      · have : (cx ≤ col.val ∧ col.val < cx + 8 ∧ cy ≤ row.val ∧ row.val < cy + (n + 1)) ↔
            (cx ≤ col.val ∧ col.val < cx + 8 ∧ cy ≤ row.val ∧ row.val < cy + n) := by omega
        simp [hr, this]

/-! ## The input vector -/

/-- `lowest_pressed()` is none iff no key is down (R39). -/
theorem State.lowestPressed_eq_none (s : State) : s.lowestPressed = none ↔ ∀ k, s.keyDown k = false := by
  simp [State.lowestPressed]

/-- `lowest_pressed()` is the least key that is down (R39). -/
theorem State.lowestPressed_eq_some (s : State) (k : Reg) :
    s.lowestPressed = some k ↔ s.keyDown k = true ∧ ∀ j < k, s.keyDown j = false := by
  rw [State.lowestPressed, List.find?_eq_some_iff_getElem]
  constructor
  · rintro ⟨hk, n, hn, rfl, h⟩
    refine ⟨hk, fun j hj => ?_⟩
    have := h j.val (by simpa [Fin.lt_def] using hj)
    simpa using this
  · rintro ⟨hk, h⟩
    exact ⟨hk, k.val, by simp, by simp, fun j hj => by simpa using h ⟨j, by omega⟩ (by simpa [Fin.lt_def] using hj)⟩

/-! ## Register ranges -/

theorem mem_regsUpTo (x k : Reg) : k ∈ regsUpTo x ↔ k ≤ x := by
  revert x k; decide

end Sys2Proof.Machine
end

