-- ==== Sys2Proof/Laws/Cycle.lean ====
section
/-! SUPPORT. What a step can do, said once: no arm faults or refuses, and a step is a halted tick or one cycle. -/

namespace Sys2Proof.Machine

/-- Every arm of `exec` gives a next state. -/
theorem exec_next (i : Instr) (s : State) : ∃ t, exec i s = .next t := by
  cases i <;> exact ⟨_, rfl⟩

theorem executeWord_next (w : Word) (s : State) : ∃ t, executeWord w s = .next t := by
  unfold executeWord
  split
  · exact exec_next _ s
  · exact ⟨_, rfl⟩

theorem step_halted (s : State) (h : s.halted ≠ none) : step s = .next s.haltedTick := by
  simp [step, cycle, Option.isSome_iff_ne_none.mpr h]

theorem step_running (s t : State) (h : s.halted = none) (e : executeWord s.fetchWord s.fetch = .next t) :
    step s = .next t.finishCycle := by
  simp [step, cycle, h, e]

/-- Everything a step can do (R90, R91): a halted tick, or Fetch, Decode, Execute and what follows Execute. -/
theorem step_cases (s t : State) (h : step s = .next t) :
    (s.halted ≠ none ∧ t = s.haltedTick) ∨
      (s.halted = none ∧ ∃ u, executeWord s.fetchWord s.fetch = .next u ∧ t = u.finishCycle) := by
  by_cases hs : s.halted = none
  · obtain ⟨u, hu⟩ := executeWord_next s.fetchWord s.fetch
    rw [step_running s u hs hu] at h
    exact .inr ⟨hs, u, hu, (Host.Outcome.next.inj h).symm⟩
  · rw [step_halted s hs] at h
    exact .inl ⟨hs, (Host.Outcome.next.inj h).symm⟩

/-- Everything Decode and Execute of a word can do: the decoded instruction, or Unrecognized (R88). -/
theorem executeWord_cases (w : Word) (s u : State) (h : executeWord w s = .next u) :
    (∃ i, decode w = .instr i ∧ exec i s = .next u) ∨
      (∃ m, decode w = .unrecognized m ∧ u = s.raiseCondition .unrecognized (some m)) := by
  unfold executeWord at h
  split at h
  · exact .inl ⟨_, ‹_›, h⟩
  · exact .inr ⟨_, ‹_›, (Host.Outcome.next.inj h).symm⟩

/-- What follows Execute: nothing in a halting cycle, else the Timer-Tick (R90). -/
theorem State.finishCycle_eq (s : State) : s.finishCycle = if s.halted = none then s.timerTick else s := by
  cases h : s.halted <;> simp [State.finishCycle, h]

end Sys2Proof.Machine
end

