-- ==== Sys2Proof/Laws/Decode.lean ====
section
/-! SUPPORT. Laws of the encoding formats: fields and formats as numbers, and each field of a word in a format of R71 is what was put there. -/

namespace Sys2Proof

/-! ## Fields and formats as numbers -/

theorem toNat_fieldClass (w : Word) : (fieldClass w).toNat = w.toNat / 4096 := by
  have := w.isLt
  rw [fieldClass, BitVec.extractLsb'_toNat, Nat.shiftRight_eq_div_pow]
  omega

theorem val_fieldX (w : Word) : (fieldX w).val = w.toNat / 256 % 16 := by
  have : (fieldX w).val = (w.extractLsb' 8 4).toNat := rfl
  rw [this, BitVec.extractLsb'_toNat, Nat.shiftRight_eq_div_pow]

theorem val_fieldY (w : Word) : (fieldY w).val = w.toNat / 16 % 16 := by
  have : (fieldY w).val = (w.extractLsb' 4 4).toNat := rfl
  rw [this, BitVec.extractLsb'_toNat, Nat.shiftRight_eq_div_pow]

theorem toNat_fieldN (w : Word) : (fieldN w).toNat = w.toNat % 16 := by
  rw [fieldN, BitVec.extractLsb'_toNat, Nat.shiftRight_zero]

theorem toNat_fieldKk (w : Word) : (fieldKk w).toNat = w.toNat % 256 := by
  rw [fieldKk, BitVec.extractLsb'_toNat, Nat.shiftRight_zero]

theorem toNat_fieldNnn (w : Word) : (fieldNnn w).toNat = w.toNat % 4096 := by
  rw [fieldNnn, BitVec.extractLsb'_toNat, Nat.shiftRight_zero]

theorem toNat_append {m n : Nat} (a : BitVec m) (b : BitVec n) : (a ++ b).toNat = a.toNat * 2 ^ n + b.toNat := by
  rw [BitVec.toNat_append, ← Nat.shiftLeft_add_eq_or_of_lt b.isLt, Nat.shiftLeft_eq]

theorem toNat_formatA (c : BitVec 4) (nnn : Addr) : (formatA c nnn).toNat = c.toNat * 4096 + nnn.toNat :=
  toNat_append c nnn

theorem toNat_formatXK (c : BitVec 4) (x : Reg) (kk : Byte) :
    (formatXK c x kk).toNat = c.toNat * 4096 + x.val * 256 + kk.toNat := by
  have h1 := toNat_append c (BitVec.ofFin x : BitVec 4)
  have h2 := toNat_append (c ++ (BitVec.ofFin x : BitVec 4)) kk
  rw [h1] at h2
  have : (BitVec.ofFin x : BitVec 4).toNat = x.val := rfl
  rw [this] at h2
  refine h2.trans ?_
  omega

theorem toNat_formatXY (c : BitVec 4) (x y : Reg) (n : BitVec 4) :
    (formatXY c x y n).toNat = c.toNat * 4096 + x.val * 256 + y.val * 16 + n.toNat := by
  have h1 := toNat_append c (BitVec.ofFin x : BitVec 4)
  have h2 := toNat_append (c ++ (BitVec.ofFin x : BitVec 4)) (BitVec.ofFin y : BitVec 4)
  have h3 := toNat_append (c ++ (BitVec.ofFin x : BitVec 4) ++ (BitVec.ofFin y : BitVec 4)) n
  rw [h1] at h2
  rw [h2] at h3
  have hx : (BitVec.ofFin x : BitVec 4).toNat = x.val := rfl
  have hy : (BitVec.ofFin y : BitVec 4).toNat = y.val := rfl
  rw [hx, hy] at h3
  refine h3.trans ?_
  omega

/-! ## Format A -/

@[simp] theorem fieldClass_formatA (c : BitVec 4) (nnn : Addr) : fieldClass (formatA c nnn) = c :=
  BitVec.eq_of_toNat_eq (by rw [toNat_fieldClass, toNat_formatA]; have := nnn.isLt; omega)

@[simp] theorem fieldNnn_formatA (c : BitVec 4) (nnn : Addr) : fieldNnn (formatA c nnn) = nnn :=
  BitVec.eq_of_toNat_eq (by rw [toNat_fieldNnn, toNat_formatA]; have := nnn.isLt; omega)

/-! ## Format XK, which holds the formats X and Z too -/

@[simp] theorem fieldClass_formatXK (c : BitVec 4) (x : Reg) (kk : Byte) : fieldClass (formatXK c x kk) = c :=
  BitVec.eq_of_toNat_eq (by rw [toNat_fieldClass, toNat_formatXK]; have := kk.isLt; omega)

@[simp] theorem fieldX_formatXK (c : BitVec 4) (x : Reg) (kk : Byte) : fieldX (formatXK c x kk) = x :=
  Fin.ext (by rw [val_fieldX, toNat_formatXK]; have := kk.isLt; omega)

@[simp] theorem fieldKk_formatXK (c : BitVec 4) (x : Reg) (kk : Byte) : fieldKk (formatXK c x kk) = kk :=
  BitVec.eq_of_toNat_eq (by rw [toNat_fieldKk, toNat_formatXK]; have := kk.isLt; omega)

/-! ## Format XY -/

@[simp] theorem fieldClass_formatXY (c : BitVec 4) (x y : Reg) (n : BitVec 4) : fieldClass (formatXY c x y n) = c :=
  BitVec.eq_of_toNat_eq (by rw [toNat_fieldClass, toNat_formatXY]; have := n.isLt; omega)

@[simp] theorem fieldX_formatXY (c : BitVec 4) (x y : Reg) (n : BitVec 4) : fieldX (formatXY c x y n) = x :=
  Fin.ext (by rw [val_fieldX, toNat_formatXY]; have := n.isLt; omega)

@[simp] theorem fieldY_formatXY (c : BitVec 4) (x y : Reg) (n : BitVec 4) : fieldY (formatXY c x y n) = y :=
  Fin.ext (by rw [val_fieldY, toNat_formatXY]; have := n.isLt; omega)

@[simp] theorem fieldN_formatXY (c : BitVec 4) (x y : Reg) (n : BitVec 4) : fieldN (formatXY c x y n) = n :=
  BitVec.eq_of_toNat_eq (by rw [toNat_fieldN, toNat_formatXY]; have := n.isLt; omega)

/-! ## A word and its fields -/

theorem formatA_fields (w : Word) : formatA (fieldClass w) (fieldNnn w) = w :=
  BitVec.eq_of_toNat_eq (by rw [toNat_formatA, toNat_fieldClass, toNat_fieldNnn]; omega)

theorem formatXK_fields (w : Word) : formatXK (fieldClass w) (fieldX w) (fieldKk w) = w :=
  BitVec.eq_of_toNat_eq (by rw [toNat_formatXK, toNat_fieldClass, val_fieldX, toNat_fieldKk]; omega)

theorem formatXY_fields (w : Word) : formatXY (fieldClass w) (fieldX w) (fieldY w) (fieldN w) = w :=
  BitVec.eq_of_toNat_eq (by rw [toNat_formatXY, toNat_fieldClass, val_fieldX, val_fieldY, toNat_fieldN]; omega)

/-! ## The masks of the opcode map (R75): each keeps the class and a key -/

theorem and_classMask (w : Word) : w &&& 0xF000 = formatXK (fieldClass w) 0 0 := by
  refine BitVec.eq_of_getLsbD_eq fun k hk => ?_
  simp only [formatXK, fieldClass, BitVec.getLsbD_append, BitVec.getLsbD_and,
    BitVec.getLsbD_extractLsb']
  interval_cases k <;> simp
theorem and_byteMask (w : Word) : w &&& maskByteKey = formatXK (fieldClass w) 0 (fieldKk w) := by
  refine BitVec.eq_of_getLsbD_eq fun k hk => ?_
  simp only [formatXK, fieldClass, fieldKk, maskByteKey, BitVec.getLsbD_append, BitVec.getLsbD_and,
    BitVec.getLsbD_extractLsb']
  interval_cases k <;> simp

theorem and_nibbleMask (w : Word) : w &&& maskNibbleKey = formatXY (fieldClass w) 0 0 (fieldN w) := by
  refine BitVec.eq_of_getLsbD_eq fun k hk => ?_
  simp only [formatXY, fieldClass, fieldN, maskNibbleKey, BitVec.getLsbD_append, BitVec.getLsbD_and,
    BitVec.getLsbD_extractLsb']
  interval_cases k <;> simp

/-- The bits a skip on two registers reads (R74). -/
theorem and_highMask (w : Word) : w &&& 0xFFF0 = formatXY (fieldClass w) (fieldX w) (fieldY w) 0 := by
  refine BitVec.eq_of_getLsbD_eq fun k hk => ?_
  show _ = (w.extractLsb' 12 4 ++ w.extractLsb' 8 4 ++ w.extractLsb' 4 4 ++ 0#4).getLsbD k
  simp only [BitVec.getLsbD_append, BitVec.getLsbD_and,
    BitVec.getLsbD_extractLsb']
  interval_cases k <;> simp
end Sys2Proof
end

