-- ==== Sys2Proof/Laws/Exec.lean ====
section
/-! SUPPORT. What the operations that several meanings share do: register writes as frames, the register range loops, the draw of a sprite, conditions and timers within a cycle. -/

namespace Sys2Proof.Machine

/-! ## Register writes -/

theorem onlyRegs_setV (s : State) (x : Reg) (b : Byte) : OnlyRegs [x] s (s.setV x b) := by
  refine ⟨rfl, fun r hr => ?_⟩
  have h := s.getV_setV x r b
  rwa [if_neg (by simpa using hr)] at h

theorem v_setV_same (s : State) (x : Reg) (b : Byte) : (s.setV x b).v[x] = b := by
  have h := s.getV_setV x x b
  rwa [if_pos rfl] at h

theorem onlyRegs_setResultThenFlag (s : State) (x : Reg) (r f : Byte) :
    OnlyRegs [x, vf] s (s.setResultThenFlag x r f) := by
  refine ⟨rfl, fun k hk => ?_⟩
  have h := s.getV_setResultThenFlag x k r f
  simp only [List.mem_cons, List.not_mem_nil, or_false, not_or] at hk
  rwa [if_neg hk.2, if_neg hk.1] at h

/-- VF holds the flag, also where the destination is VF (R132). -/
theorem v_setResultThenFlag_vf (s : State) (x : Reg) (r f : Byte) : (s.setResultThenFlag x r f).v[vf] = f := by
  have h := s.getV_setResultThenFlag x vf r f
  rwa [if_pos rfl] at h

theorem v_setResultThenFlag_dest (s : State) (x : Reg) (r f : Byte) (hx : x ≠ vf) :
    (s.setResultThenFlag x r f).v[x] = r := by
  have h := s.getV_setResultThenFlag x x r f
  rwa [if_neg hx, if_pos rfl] at h

theorem keyDown_lowNibble (s : State) (b : Byte) :
    s.keyDown (lowNibble b) = s.key[b.toNat % 16]'(Nat.mod_lt _ (by decide)) := by
  simp only [State.keyDown, Fin.getElem_fin, val_lowNibble]

/-! ## The loops over V0 to Vx -/

theorem nodup_regsUpTo (x : Reg) : (regsUpTo x).Nodup := by
  revert x; decide

/-- The data addresses of a loop over registers are different cells. -/
theorem cellOf_indexed_inj (s : State) (j k : Nat) (hj : j < 16) (hk : k < 16)
    (h : cellOf (s.indexed j) = cellOf (s.indexed k)) : j = k := by
  rw [cellOf_indexed, cellOf_indexed] at h; omega

/-- A store loop over any different registers: their cells hold them, every other byte is as it was (R194). -/
theorem storeLoop_spec (s : State) (l : List Reg) (t : State) (hl : l.Nodup) :
    let u := l.foldl (fun t k => t.memWrite (s.indexed k.val) (s.getV k)) t
    u = { t with mem := u.mem } ∧ (∀ r ∈ l, u.mem.read (cellOf (s.indexed r.val)) = s.getV r) ∧
      ∀ a, (∀ r ∈ l, a ≠ cellOf (s.indexed r.val)) → u.mem.read a = t.mem.read a := by
  induction l generalizing t with
  | nil => exact ⟨rfl, by simp, by simp⟩
  | cons k l ih =>
    obtain ⟨hk, hl⟩ := List.nodup_cons.mp hl
    obtain ⟨e1, e2, e3⟩ := ih (t.memWrite (s.indexed k.val) (s.getV k)) hl
    refine ⟨e1, fun r hr => ?_, fun a ha => ?_⟩
    · rcases List.mem_cons.mp hr with rfl | hr
      · rw [List.foldl_cons, e3 _ fun r' hr' h =>
          hk (by rw [Fin.ext (cellOf_indexed_inj s _ _ r.isLt r'.isLt h)]; exact hr')]
        simp
      · exact e2 r hr
    · rw [List.foldl_cons, e3 a fun r hr => ha r (List.mem_cons_of_mem _ hr)]
      simp [ha k (by simp)]

/-- Everything the store of V0 to Vx does (R194). -/
theorem State.storeRegs_spec (s : State) (x : Reg) :
    s.storeRegs x = { s with mem := (s.storeRegs x).mem } ∧
      (∀ r, r ≤ x → (s.storeRegs x).mem.read (cellOf (s.indexed r.val)) = s.getV r) ∧
      ∀ a, (∀ r, r ≤ x → a ≠ cellOf (s.indexed r.val)) → (s.storeRegs x).mem.read a = s.mem.read a := by
  obtain ⟨e1, e2, e3⟩ := storeLoop_spec s (regsUpTo x) s (nodup_regsUpTo x)
  exact ⟨e1, fun r hr => e2 r ((mem_regsUpTo x r).mpr hr),
    fun a ha => e3 a fun r hr => ha r ((mem_regsUpTo x r).mp hr)⟩

/-- A load loop over any registers: each gets its byte, the others keep theirs (R195). -/
theorem loadLoop_spec (s : State) (l : List Reg) (t : State) :
    let u := l.foldl (fun t k => t.setV k (s.memRead (s.indexed k.val))) t
    u = { t with v := u.v } ∧ ∀ r, u.getV r = if r ∈ l then s.memRead (s.indexed r.val) else t.getV r := by
  induction l generalizing t with
  | nil => exact ⟨rfl, by simp⟩
  | cons k l ih =>
    obtain ⟨e1, e2⟩ := ih (t.setV k (s.memRead (s.indexed k.val)))
    refine ⟨e1, fun r => ?_⟩
    rw [List.foldl_cons, e2 r, State.getV_setV]
    by_cases hl : r ∈ l
    · simp [hl]
    · by_cases hk : r = k <;> simp [hk, hl]

/-- Everything the load of V0 to Vx does (R195). -/
theorem State.loadRegs_spec (s : State) (x : Reg) :
    s.loadRegs x = { s with v := (s.loadRegs x).v } ∧
      ∀ r, (s.loadRegs x).v[r] = if r ≤ x then s.mem.read (cellOf (s.indexed r.val)) else s.v[r] := by
  obtain ⟨e1, e2⟩ := loadLoop_spec s (regsUpTo x) s
  refine ⟨e1, fun r => (e2 r).trans ?_⟩
  by_cases h : r ≤ x
  · rw [if_pos ((mem_regsUpTo x r).mpr h), if_pos h]; rfl
  · rw [if_neg fun h' => h ((mem_regsUpTo x r).mp h'), if_neg h]; rfl

/-! ## The draw -/

/-- The sprite of DRW lights the cells that `spriteCovers` names (R151). -/
theorem State.drew_drawSprite (s : State) (x y : Reg) (n : Nat) :
    Draw.Drew s.fb (spriteCovers s x y n) (s.drawSprite x y n) := by
  refine (Draw.drew_sprite s.fb _ n _ _).congr fun row col => ?_
  simp only [spriteCovers, spriteBit, State.memRead, cellOf_indexed, State.getV]
  rfl

/-! ## Within a cycle -/

/-- Execute of a word that decodes is `exec`. -/
theorem executeWord_of_decode (s : State) (i : Instr) (h : decode s.bytesAtPc = .instr i) :
    executeWord s.fetchWord s.fetch = exec i s.fetch := by
  simp [executeWord, s.fetchWord_eq, h]

theorem setWidth_here (s : State) : s.here.setWidth 12 = (s.pc - 2).setWidth 12 := by
  apply BitVec.eq_of_toNat_eq
  simp only [BitVec.toNat_setWidth, State.here]
  rw [toNat_and_mask]; omega

/-- A condition raised in a cycle reports the fetched word and pc as it was before the fetch (R214). -/
theorem raiseCondition_fetch (s : State) (c : ConditionCode) (mask : Option Word) :
    s.fetch.raiseCondition c mask =
      { s with
        pc := (s.pc + 2) &&& 0xFFF
        out := ⟨false, some ⟨c, s.bytesAtPc, s.pc.setWidth 12, mask⟩⟩
        halted := c.haltReason.or s.halted } := by
  have : s.fetch.here.setWidth 12 = s.pc.setWidth 12 := by
    rw [s.here_fetch]
    apply BitVec.eq_of_toNat_eq
    simp only [BitVec.toNat_setWidth]
    rw [toNat_and_mask]; omega
  rw [State.raiseCondition, s.wordAt_here_fetch, s.fetchWord_eq, this]
  rfl

/-- A timer counts down by one and 0 stays 0 (R215). -/
theorem toNat_timerDown (b : Byte) : (timerDown b).toNat = b.toNat - 1 := by
  revert b; decide

/-- What follows Execute touches the timers and the output record only (R215). -/
theorem State.finishCycle_frame (s : State) :
    s.finishCycle = { s with dt := s.finishCycle.dt, st := s.finishCycle.st, out := s.finishCycle.out } := by
  rw [State.finishCycle_eq]; split <;> rfl

end Sys2Proof.Machine
end

