-- ==== Sys2Proof/Laws/HostPort.lean ====
section
/-! SUPPORT. What a host move can do, said once, and what a load gives. -/

namespace Sys2Proof.Machine

/-- Everything a load of the state can do (R231). -/
theorem State.load_eq (s : State) (image : List Byte) :
    s.load image =
      if image.length ≤ 3584 then some { s with mem := s.mem.writeFrom 0x200 image } else none := rfl

/-- Everything an allowed host move can do (R225): the new session and the reply of each of the six. -/
theorem hostMove_cases (m : HostMove) (c d : Session) (r : Reply) (h : hostMove m c = some (d, r)) :
    (m = .reset ∧ d = ⟨.fresh, c.state.resetMove⟩ ∧ r = .done) ∨
      (∃ image, m = .load image ∧ c.phase ≠ .running ∧
        ((image.length ≤ 3584 ∧ d = ⟨.loaded, { c.state with mem := c.state.mem.writeFrom 0x200 image }⟩ ∧
            r = .accepted) ∨
          (3584 < image.length ∧ d = ⟨.refusedLoad, c.state⟩ ∧ r = .rejected))) ∨
      (∃ k, m = .setKeys k ∧ d = ⟨c.phase, { c.state with key := k }⟩ ∧ r = .done) ∨
      (m = .tick ∧ c.phase ≠ .refusedLoad ∧ ∃ t, step c.state = .next t ∧ d = ⟨.running, t⟩ ∧ r = .output t.out) ∨
      (m = .readFramebuffer ∧ d = c ∧ r = .frame c.state.fb c.state.dirty) ∨
      (m = .clearDirty ∧ d = ⟨c.phase, { c.state with dirty := false }⟩ ∧ r = .done) := by
  cases m with
  | reset => cases h; exact .inl ⟨rfl, rfl, rfl⟩
  | load image =>
    simp only [hostMove, Session.load, State.load_eq] at h
    split at h
    · cases h
    · by_cases hl : image.length ≤ 3584
      · rw [if_pos hl] at h
        cases h
        exact .inr (.inl ⟨image, rfl, ‹_›, .inl ⟨hl, rfl, rfl⟩⟩)
      · rw [if_neg hl] at h
        cases h
        exact .inr (.inl ⟨image, rfl, ‹_›, .inr ⟨Nat.lt_of_not_le hl, rfl, rfl⟩⟩)
  | setKeys k => cases h; exact .inr (.inr (.inl ⟨k, rfl, rfl, rfl⟩))
  | tick =>
    simp only [hostMove, Session.tick] at h
    split at h
    · cases h
    · split at h <;> cases h
      exact .inr (.inr (.inr (.inl ⟨rfl, ‹_›, _, ‹_›, rfl, rfl⟩)))
  | readFramebuffer => cases h; exact .inr (.inr (.inr (.inr (.inl ⟨rfl, rfl, rfl⟩))))
  | clearDirty => cases h; exact .inr (.inr (.inr (.inr (.inr ⟨rfl, rfl, rfl⟩))))

end Sys2Proof.Machine
end

