-- ==== Sys2Proof/Laws/PerInstr.lean ====
section
/-! SUPPORT. Families of statements with one lemma per constructor of Instr. EncodingRow: the word of an instruction selects the row of the opcode map that has its mnemonic (spec/30_encoding.md R75). -/

namespace Sys2Proof.Laws

/-! ## The masks of R73 and R74 on the formats -/

theorem and_append {m n : Nat} (a c : BitVec m) (b d : BitVec n) : (a ++ b) &&& (c ++ d) = (a &&& c) ++ (b &&& d) := by
  ext i hi
  simp only [BitVec.getElem_and, BitVec.getElem_append]
  split <;> simp

/-- A mask of two fields on a word of two fields. -/
theorem and_append_masks {m n : Nat} (a p a' : BitVec m) (b q b' : BitVec n) (ha : a &&& p = a') (hb : b &&& q = b') :
    (a ++ b) &&& (p ++ q) = a' ++ b' := by rw [and_append, ha, hb]

theorem nibble_and_ones (c : BitVec 4) : c &&& 0xF#4 = c := BitVec.and_allOnes

theorem byte_and_ones (kk : Byte) : kk &&& 0xFF#8 = kk := BitVec.and_allOnes

theorem formatA_and_class (c : BitVec 4) (nnn : Addr) : formatA c nnn &&& 0xF000 = formatA c 0 :=
  and_append_masks c 0xF#4 c nnn 0x000#12 0 (nibble_and_ones c) BitVec.and_zero

theorem formatXK_and_class (c : BitVec 4) (x : Reg) (kk : Byte) : formatXK c x kk &&& 0xF000 = formatXK c 0 0 :=
  and_append_masks _ (0xF#4 ++ 0x0#4) _ kk 0x00#8 0
    (and_append_masks c _ c _ _ 0 (nibble_and_ones c) BitVec.and_zero) BitVec.and_zero

theorem formatXK_and_byteKey (c : BitVec 4) (x : Reg) (kk : Byte) : formatXK c x kk &&& 0xF0FF = formatXK c 0 kk :=
  and_append_masks _ (0xF#4 ++ 0x0#4) _ kk 0xFF#8 kk
    (and_append_masks c _ c _ _ 0 (nibble_and_ones c) BitVec.and_zero) (byte_and_ones kk)

theorem formatXY_and_class (c : BitVec 4) (x y : Reg) (n : BitVec 4) : formatXY c x y n &&& 0xF000 = formatXY c 0 0 0 :=
  and_append_masks _ (0xF#4 ++ 0x0#4 ++ 0x0#4) _ n 0x0#4 0
    (and_append_masks _ _ _ _ _ 0 (and_append_masks c _ c _ _ 0 (nibble_and_ones c) BitVec.and_zero) BitVec.and_zero)
    BitVec.and_zero

theorem formatXY_and_nibbleKey (c : BitVec 4) (x y : Reg) (n : BitVec 4) :
    formatXY c x y n &&& 0xF00F = formatXY c 0 0 n :=
  and_append_masks _ (0xF#4 ++ 0x0#4 ++ 0x0#4) _ n 0xF#4 n
    (and_append_masks _ _ _ _ _ 0 (and_append_masks c _ c _ _ 0 (nibble_and_ones c) BitVec.and_zero) BitVec.and_zero)
    (nibble_and_ones n)

/-! ## The family -/

/-- The encoding of `i` selects the row of the opcode map that has its mnemonic. -/
def EncodingRow.Statement (i : Instr) : Prop :=
  ∃ r ∈ opcodeRows, r.mnemonic = i.mnemonic ∧ selects (encode i) r = true

theorem EncodingRow.of_row (i : Instr) (r : OpcodeRow) (hm : (opcodeRows.contains r && r.mnemonic == i.mnemonic) = true)
    (hs : encode i &&& r.mask = r.pattern) : EncodingRow.Statement i := by
  simp only [Bool.and_eq_true, List.contains_iff_mem, beq_iff_eq] at hm
  exact ⟨r, hm.1, hm.2, by rw [selects, hs]; exact beq_self_eq_true _⟩

theorem EncodingRow.cls : EncodingRow.Statement (.cls) :=
  of_row _ ⟨0x00E0, 0xF0FF, "CLS"⟩ (by rfl) (rfl)

theorem EncodingRow.ret : EncodingRow.Statement (.ret) :=
  of_row _ ⟨0x00EE, 0xF0FF, "RET"⟩ (by rfl) (rfl)

theorem EncodingRow.jp (nnn : Addr) : EncodingRow.Statement (.jp nnn) :=
  of_row _ ⟨0x1000, 0xF000, "JP_addr"⟩ (by rfl) (formatA_and_class _ _)

theorem EncodingRow.call (nnn : Addr) : EncodingRow.Statement (.call nnn) :=
  of_row _ ⟨0x2000, 0xF000, "CALL_addr"⟩ (by rfl) (formatA_and_class _ _)

theorem EncodingRow.seByte (x : Reg) (kk : Byte) : EncodingRow.Statement (.seByte x kk) :=
  of_row _ ⟨0x3000, 0xF000, "SE_Vx__byte"⟩ (by rfl) (formatXK_and_class _ _ _)

theorem EncodingRow.sneByte (x : Reg) (kk : Byte) : EncodingRow.Statement (.sneByte x kk) :=
  of_row _ ⟨0x4000, 0xF000, "SNE_Vx__byte"⟩ (by rfl) (formatXK_and_class _ _ _)

theorem EncodingRow.seReg (x : Reg) (y : Reg) : EncodingRow.Statement (.seReg x y) :=
  of_row _ ⟨0x5000, 0xF000, "SE_Vx__Vy"⟩ (by rfl) (formatXY_and_class _ _ _ _)

theorem EncodingRow.ldByte (x : Reg) (kk : Byte) : EncodingRow.Statement (.ldByte x kk) :=
  of_row _ ⟨0x6000, 0xF000, "LD_Vx__byte"⟩ (by rfl) (formatXK_and_class _ _ _)

theorem EncodingRow.addByte (x : Reg) (kk : Byte) : EncodingRow.Statement (.addByte x kk) :=
  of_row _ ⟨0x7000, 0xF000, "ADD_Vx__byte"⟩ (by rfl) (formatXK_and_class _ _ _)

theorem EncodingRow.ldReg (x : Reg) (y : Reg) : EncodingRow.Statement (.ldReg x y) :=
  of_row _ ⟨0x8000, 0xF00F, "LD_Vx__Vy"⟩ (by rfl) (formatXY_and_nibbleKey _ _ _ _)

theorem EncodingRow.orReg (x : Reg) (y : Reg) : EncodingRow.Statement (.orReg x y) :=
  of_row _ ⟨0x8001, 0xF00F, "OR_Vx__Vy"⟩ (by rfl) (formatXY_and_nibbleKey _ _ _ _)

theorem EncodingRow.andReg (x : Reg) (y : Reg) : EncodingRow.Statement (.andReg x y) :=
  of_row _ ⟨0x8002, 0xF00F, "AND_Vx__Vy"⟩ (by rfl) (formatXY_and_nibbleKey _ _ _ _)

theorem EncodingRow.xorReg (x : Reg) (y : Reg) : EncodingRow.Statement (.xorReg x y) :=
  of_row _ ⟨0x8003, 0xF00F, "XOR_Vx__Vy"⟩ (by rfl) (formatXY_and_nibbleKey _ _ _ _)

theorem EncodingRow.addReg (x : Reg) (y : Reg) : EncodingRow.Statement (.addReg x y) :=
  of_row _ ⟨0x8004, 0xF00F, "ADD_Vx__Vy"⟩ (by rfl) (formatXY_and_nibbleKey _ _ _ _)

theorem EncodingRow.subReg (x : Reg) (y : Reg) : EncodingRow.Statement (.subReg x y) :=
  of_row _ ⟨0x8005, 0xF00F, "SUB_Vx__Vy"⟩ (by rfl) (formatXY_and_nibbleKey _ _ _ _)

theorem EncodingRow.shr (x : Reg) (y : Reg) : EncodingRow.Statement (.shr x y) :=
  of_row _ ⟨0x8006, 0xF00F, "SHR_Vx____Vy"⟩ (by rfl) (formatXY_and_nibbleKey _ _ _ _)

theorem EncodingRow.subn (x : Reg) (y : Reg) : EncodingRow.Statement (.subn x y) :=
  of_row _ ⟨0x8007, 0xF00F, "SUBN_Vx__Vy"⟩ (by rfl) (formatXY_and_nibbleKey _ _ _ _)

theorem EncodingRow.shl (x : Reg) (y : Reg) : EncodingRow.Statement (.shl x y) :=
  of_row _ ⟨0x800E, 0xF00F, "SHL_Vx____Vy"⟩ (by rfl) (formatXY_and_nibbleKey _ _ _ _)

theorem EncodingRow.sneReg (x : Reg) (y : Reg) : EncodingRow.Statement (.sneReg x y) :=
  of_row _ ⟨0x9000, 0xF000, "SNE_Vx__Vy"⟩ (by rfl) (formatXY_and_class _ _ _ _)

theorem EncodingRow.ldI (nnn : Addr) : EncodingRow.Statement (.ldI nnn) :=
  of_row _ ⟨0xA000, 0xF000, "LD_I__addr"⟩ (by rfl) (formatA_and_class _ _)

theorem EncodingRow.jpV0 (nnn : Addr) : EncodingRow.Statement (.jpV0 nnn) :=
  of_row _ ⟨0xB000, 0xF000, "JP_V0__addr"⟩ (by rfl) (formatA_and_class _ _)

theorem EncodingRow.rnd (x : Reg) (kk : Byte) : EncodingRow.Statement (.rnd x kk) :=
  of_row _ ⟨0xC000, 0xF000, "RND_Vx__byte"⟩ (by rfl) (formatXK_and_class _ _ _)

theorem EncodingRow.drw (x : Reg) (y : Reg) (n : Nat) : EncodingRow.Statement (.drw x y n) :=
  of_row _ ⟨0xD000, 0xF000, "DRW_Vx__Vy__nibble"⟩ (by rfl) (formatXY_and_class _ _ _ _)

theorem EncodingRow.skp (x : Reg) : EncodingRow.Statement (.skp x) :=
  of_row _ ⟨0xE09E, 0xF0FF, "SKP_Vx"⟩ (by rfl) (formatXK_and_byteKey _ _ _)

theorem EncodingRow.sknp (x : Reg) : EncodingRow.Statement (.sknp x) :=
  of_row _ ⟨0xE0A1, 0xF0FF, "SKNP_Vx"⟩ (by rfl) (formatXK_and_byteKey _ _ _)

theorem EncodingRow.ldVDt (x : Reg) : EncodingRow.Statement (.ldVDt x) :=
  of_row _ ⟨0xF007, 0xF0FF, "LD_Vx__DT"⟩ (by rfl) (formatXK_and_byteKey _ _ _)

theorem EncodingRow.ldVK (x : Reg) : EncodingRow.Statement (.ldVK x) :=
  of_row _ ⟨0xF00A, 0xF0FF, "LD_Vx__K"⟩ (by rfl) (formatXK_and_byteKey _ _ _)

theorem EncodingRow.ldDtV (x : Reg) : EncodingRow.Statement (.ldDtV x) :=
  of_row _ ⟨0xF015, 0xF0FF, "LD_DT__Vx"⟩ (by rfl) (formatXK_and_byteKey _ _ _)

theorem EncodingRow.ldStV (x : Reg) : EncodingRow.Statement (.ldStV x) :=
  of_row _ ⟨0xF018, 0xF0FF, "LD_ST__Vx"⟩ (by rfl) (formatXK_and_byteKey _ _ _)

theorem EncodingRow.addI (x : Reg) : EncodingRow.Statement (.addI x) :=
  of_row _ ⟨0xF01E, 0xF0FF, "ADD_I__Vx"⟩ (by rfl) (formatXK_and_byteKey _ _ _)

theorem EncodingRow.ldF (x : Reg) : EncodingRow.Statement (.ldF x) :=
  of_row _ ⟨0xF029, 0xF0FF, "LD_F__Vx"⟩ (by rfl) (formatXK_and_byteKey _ _ _)

theorem EncodingRow.ldB (x : Reg) : EncodingRow.Statement (.ldB x) :=
  of_row _ ⟨0xF033, 0xF0FF, "LD_B__Vx"⟩ (by rfl) (formatXK_and_byteKey _ _ _)

theorem EncodingRow.ldMemV (x : Reg) : EncodingRow.Statement (.ldMemV x) :=
  of_row _ ⟨0xF055, 0xF0FF, "LD__I___Vx"⟩ (by rfl) (formatXK_and_byteKey _ _ _)

theorem EncodingRow.ldVMem (x : Reg) : EncodingRow.Statement (.ldVMem x) :=
  of_row _ ⟨0xF065, 0xF0FF, "LD_Vx___I"⟩ (by rfl) (formatXK_and_byteKey _ _ _)

end Sys2Proof.Laws
end

