-- ==== Sys2Proof/Tests/Slice0.lean ====
section
/-! SUPPORT. The model's own tests: well-formedness, decoding of words written out from spec/30_encoding.md R75, one step of every instruction with results from spec/95_test_vectors.md, and a witness for the hypotheses of every statement. -/

namespace Sys2Proof.Tests

open Sys2Proof.Machine

/-! ## Helpers -/

/-- Registers: the listed ones, 0 elsewhere. -/
def regs (l : List (Reg × Byte)) : Vector Byte 16 := l.foldl (fun v p => v.set p.1 p.2) (Vector.replicate 16 0)

/-- Keys held. -/
def keys (l : List Reg) : Vector Bool 16 := l.foldl (fun k i => k.set i.val true) (Vector.replicate 16 false)

/-- Cells set, given as (column, row). -/
def cells (l : List (Fin 64 × Fin 32)) : Framebuffer :=
  l.foldl (fun f p => Framebuffer.toggle f p.2 p.1) Framebuffer.clear

/-- Memory with the listed bytes stored. -/
def bytes (l : List (Nat × Byte)) : Memory := l.foldl (fun m p => m.write p.1 p.2) []

/-- Whether an outcome is a next state. -/
def isNext (o : Host.Outcome State Fault Refusal) : Bool :=
  match o with
  | .next _ => true
  | .fault _ => false
  | .refused _ => false

/-- The next state of an outcome. -/
def nextOf (o : Host.Outcome State Fault Refusal) : State :=
  match o with
  | .next t => t
  | .fault _ => State.reset
  | .refused _ => State.reset

theorem eq_nextOf (o : Host.Outcome State Fault Refusal) (h : isNext o = true) : o = .next (nextOf o) := by
  cases o with
  | next t => rfl
  | fault r => cases h
  | refused r => cases h

/-- One step with the word `w` placed at pc. -/
def after (w : Nat) (s : State) : State := nextOf (step (s.withFetchWord 16 w))

/-! ## Well-formedness: the one check, refused and just accepted -/

theorem test_wf_refuses_height_16 : Instr.wf (.drw 0 0 16) = false := by decide

theorem test_wf_accepts_height_15 : Instr.wf (.drw 15 15 15) = true := by decide

/-! ## Decoding: a word for every operation, written out from R75 (class, fields, key) -/

theorem test_decode_class_0 :
    decode 0b0000000011100000 = .instr .cls ∧ decode 0b0000000011101110 = .instr .ret := by decide

theorem test_decode_jumps :
    decode 0b0001001000110100 = .instr (.jp 0x234) ∧ decode 0b0010001000110100 = .instr (.call 0x234) ∧
      decode 0b1011001000110100 = .instr (.jpV0 0x234) := by decide

theorem test_decode_skips :
    decode 0b0011010110101100 = .instr (.seByte 5 0xAC) ∧ decode 0b0100010110101100 = .instr (.sneByte 5 0xAC) ∧
      decode 0b0101010111000000 = .instr (.seReg 5 12) ∧ decode 0b1001010111000000 = .instr (.sneReg 5 12) := by decide

theorem test_decode_immediates :
    decode 0b0110010110101100 = .instr (.ldByte 5 0xAC) ∧ decode 0b0111010110101100 = .instr (.addByte 5 0xAC) ∧
      decode 0b1100010110101100 = .instr (.rnd 5 0xAC) := by decide

theorem test_decode_moves_and_logic :
    decode 0b1000010111000000 = .instr (.ldReg 5 12) ∧ decode 0b1000010111000001 = .instr (.orReg 5 12) ∧
      decode 0b1000010111000010 = .instr (.andReg 5 12) ∧ decode 0b1000010111000011 = .instr (.xorReg 5 12) := by decide

theorem test_decode_arithmetic :
    decode 0b1000010111000100 = .instr (.addReg 5 12) ∧ decode 0b1000010111000101 = .instr (.subReg 5 12) ∧
      decode 0b1000010111000110 = .instr (.shr 5 12) ∧ decode 0b1000010111000111 = .instr (.subn 5 12) ∧
      decode 0b1000010111001110 = .instr (.shl 5 12) := by decide

theorem test_decode_index_and_draw :
    decode 0b1010001000110100 = .instr (.ldI 0x234) ∧ decode 0b1101010111001001 = .instr (.drw 5 12 9) := by decide

theorem test_decode_class_E :
    decode 0b1110010110011110 = .instr (.skp 5) ∧ decode 0b1110010110100001 = .instr (.sknp 5) := by decide

theorem test_decode_timers_and_keys :
    decode 0b1111010100000111 = .instr (.ldVDt 5) ∧ decode 0b1111010100001010 = .instr (.ldVK 5) ∧
      decode 0b1111010100010101 = .instr (.ldDtV 5) ∧ decode 0b1111010100011000 = .instr (.ldStV 5) := by decide

theorem test_decode_index_and_memory :
    decode 0b1111010100011110 = .instr (.addI 5) ∧ decode 0b1111010100101001 = .instr (.ldF 5) ∧
      decode 0b1111010100110011 = .instr (.ldB 5) ∧ decode 0b1111010101010101 = .instr (.ldMemV 5) ∧
      decode 0b1111010101100101 = .instr (.ldVMem 5) := by decide

/-- Bits the decoder ignores (R73, R74; T6.6, T6.7). -/
theorem test_decode_ignored_bits :
    decode 0x01E0 = .instr .cls ∧ decode 0x0FEE = .instr .ret ∧ decode 0x512F = .instr (.seReg 1 2) ∧
      decode 0x9127 = .instr (.sneReg 1 2) := by decide

/-- Unrecognized words and their masks (T6.1 to T6.5). -/
theorem test_decode_unrecognized :
    decode 0xFFFF = .unrecognized 0xF0FF ∧ decode 0x0123 = .unrecognized 0xF0FF ∧
      decode 0x8008 = .unrecognized 0xF00F ∧ decode 0xE000 = .unrecognized 0xF0FF ∧
      decode 0xF000 = .unrecognized 0xF0FF ∧ decode 0x0000 = .unrecognized 0xF0FF := by decide

theorem test_encode_words :
    encode (.jp 0x234) = 0x1234 ∧ encode (.seByte 5 0xAC) = 0x35AC ∧ encode (.subn 5 12) = 0x85C7 ∧
      encode (.drw 5 12 9) = 0xD5C9 ∧ encode (.ldVMem 5) = 0xF565 ∧ encode .ret = 0x00EE := by decide

theorem test_decodeTableWord :
    decodeTableWord 16 0xD5C9 = some (.drw 5 12 9) ∧ decodeTableWord 16 0x8008 = none := by decide

/-! ## One step of every instruction (spec/95_test_vectors.md, the vector's number in each comment) -/

/-- CLS (T3.1): cells cleared, dirty set. -/
theorem test_cls :
    let t := after 0x00E0 { State.reset with fb := cells [(0, 0), (63, 31)] }
    t.fb = Framebuffer.clear ∧ t.dirty = true ∧ t.pc = 0x202 := by decide

/-- RET (T6.7). -/
theorem test_ret :
    let t := after 0x00EE { State.reset with stack := [0x20A] }
    t.pc = 0x20A ∧ t.stack = [] ∧ t.halted = none := by decide

/-- RET on an empty stack (T7.1). -/
theorem test_ret_underflow :
    let t := after 0x00EE State.reset
    t.pc = 0x202 ∧ t.halted = some .stackUnderflow ∧
      t.out = ⟨false, some ⟨.stackUnderflow, 0x00EE, 0x200, none⟩⟩ := by decide

/-- JP addr (T1.3), and the self-jump (T1.4). -/
theorem test_jp : (after 0x1234 State.reset).pc = 0x234 ∧ (after 0x1200 State.reset).pc = 0x200 := by decide

/-- CALL: the 16th push succeeds (T1.6). -/
theorem test_call :
    let t := after 0x2300 { State.reset with stack := List.replicate 15 0x202 }
    t.pc = 0x300 ∧ t.stack = 0x202 :: List.replicate 15 0x202 ∧ t.halted = none := by decide

/-- CALL on a full stack (T7.2): no Timer-Tick. -/
theorem test_call_overflow :
    let t := after 0x2300 { State.reset with stack := List.replicate 16 0x202, dt := 4 }
    t.pc = 0x202 ∧ t.halted = some .stackOverflow ∧ t.stack.length = 16 ∧ t.dt = 4 ∧
      t.out = ⟨false, some ⟨.stackOverflow, 0x2300, 0x200, none⟩⟩ := by decide

/-- SE Vx, byte taken (T1.7), and taken to 0x002 at the top of memory (T1.19). -/
theorem test_se_byte :
    (after 0x3342 { State.reset with v := regs [(3, 0x42)] }).pc = 0x204 ∧
      (after 0x3000 { State.reset with pc := 0xFFE }).pc = 0x002 := by decide

/-- SNE Vx, byte (T1.9, T1.10). -/
theorem test_sne_byte :
    (after 0x4342 { State.reset with v := regs [(3, 0x41)] }).pc = 0x204 ∧
      (after 0x4342 { State.reset with v := regs [(3, 0x42)] }).pc = 0x202 := by decide

/-- SE Vx, Vy (T1.11, T1.12). -/
theorem test_se_reg :
    (after 0x5120 { State.reset with v := regs [(1, 7), (2, 7)] }).pc = 0x204 ∧
      (after 0x5120 { State.reset with v := regs [(1, 7), (2, 8)] }).pc = 0x202 := by decide

/-- SNE Vx, Vy (T1.14, T1.15). -/
theorem test_sne_reg :
    (after 0x9120 { State.reset with v := regs [(1, 1), (2, 2)] }).pc = 0x204 ∧
      (after 0x9120 { State.reset with v := regs [(1, 9), (2, 9)] }).pc = 0x202 := by decide

/-- JP V0, addr: the sum is masked (T1.18). -/
theorem test_jp_v0 : (after 0xBFFF { State.reset with v := regs [(0, 0xFF)] }).pc = 0x0FE := by decide

/-- LD Vx, byte (T2.1), with both timers counting down (T7.6). -/
theorem test_ld_byte :
    let t := after 0x6A7B { State.reset with dt := 1, st := 2 }
    t.v = regs [(10, 0x7B)] ∧ t.dt = 0 ∧ t.st = 1 ∧ t.out = ⟨false, none⟩ := by decide

/-- ADD Vx, byte wraps without a flag (T2.2). -/
theorem test_add_byte :
    (after 0x7003 { State.reset with v := regs [(0, 0xFE)] }).v = regs [(0, 0x01)] := by decide

/-- LD Vx, Vy (T2.5). -/
theorem test_ld_reg :
    (after 0x8120 { State.reset with v := regs [(2, 0x55)] }).v = regs [(1, 0x55), (2, 0x55)] := by decide

/-- OR leaves VF alone (T2.6). -/
theorem test_or :
    (after 0x8121 { State.reset with v := regs [(1, 0xF0), (2, 0x0F), (15, 7)] }).v =
      regs [(1, 0xFF), (2, 0x0F), (15, 7)] := by decide

/-- AND (T2.7). -/
theorem test_and :
    (after 0x8122 { State.reset with v := regs [(1, 0xF0), (2, 0x3C)] }).v = regs [(1, 0x30), (2, 0x3C)] := by decide

/-- XOR (T2.8). -/
theorem test_xor :
    (after 0x8123 { State.reset with v := regs [(1, 0xF0), (2, 0x3C)] }).v = regs [(1, 0xCC), (2, 0x3C)] := by decide

/-- ADD Vx, Vy with x = F: the flag wins (T2.14). -/
theorem test_add_reg :
    (after 0x8F14 { State.reset with v := regs [(15, 0x80), (1, 0x90)] }).v = regs [(15, 1), (1, 0x90)] := by decide

/-- ADD Vx, Vy at the largest sum (T2.12). -/
theorem test_add_reg_carry :
    (after 0x8124 { State.reset with v := regs [(1, 0xFF), (2, 0xFF)] }).v = regs [(1, 0xFE), (2, 0xFF), (15, 1)] := by
  decide

/-- SUB of equal values gives VF = 0 (T2.18). -/
theorem test_sub_equal :
    (after 0x8125 { State.reset with v := regs [(1, 5), (2, 5), (15, 1)] }).v = regs [(2, 5)] := by decide

/-- SUB (T2.16). -/
theorem test_sub :
    (after 0x8125 { State.reset with v := regs [(1, 5), (2, 3)] }).v = regs [(1, 2), (2, 3), (15, 1)] := by decide

/-- SHR ignores y (T2.25) and gives the bit out (T2.24). -/
theorem test_shr :
    (after 0x8126 { State.reset with v := regs [(1, 4), (2, 0xFF)] }).v = regs [(1, 2), (2, 0xFF)] ∧
      (after 0x8106 { State.reset with v := regs [(1, 5)] }).v = regs [(1, 2), (15, 1)] := by decide

/-- SUBN (T2.21, T2.22). -/
theorem test_subn :
    (after 0x8127 { State.reset with v := regs [(1, 3), (2, 5)] }).v = regs [(1, 2), (2, 5), (15, 1)] ∧
      (after 0x8127 { State.reset with v := regs [(1, 5), (2, 3)] }).v = regs [(1, 0xFE), (2, 3)] := by decide

/-- SHL (T2.28, T2.31). -/
theorem test_shl :
    (after 0x810E { State.reset with v := regs [(1, 0x81)] }).v = regs [(1, 2), (15, 1)] ∧
      (after 0x8F0E { State.reset with v := regs [(15, 2)] }).v = regs [] := by decide

/-- LD I, addr (T5.1). -/
theorem test_ld_i : (after 0xA123 State.reset).i = 0x123 := by decide

/-- RND with kk = 0 gives 0 whatever is drawn (T2.33). -/
theorem test_rnd_zero (s : State) :
    exec (.rnd 3 0) s = .next { s with v := s.v.set 3 0, draws := s.draws + 1 } := by
  simp [exec, execRnd, State.countDraw, State.setV]

/-- DRW: bit 7 at the left, and the collision (T3.3, T3.4). -/
theorem test_drw :
    let s := { State.reset with i := 0x300, mem := bytes [(0x300, 0x81)], v := regs [(1, 2), (2, 3)] }
    let t := after 0xD121 s
    let u := after 0xD121 { s with fb := cells [(2, 3)] }
    t.fb = cells [(2, 3), (9, 3)] ∧ t.v[15] = 0 ∧ t.dirty = true ∧ u.fb = cells [(9, 3)] ∧ u.v[15] = 1 := by decide

/-- DRW is clipped at the right and at the bottom, and the sprite bytes wrap at 0xFFF (T3.5, T3.10). -/
theorem test_drw_edges :
    (after 0xD123 { State.reset with
      i := 0x300, mem := bytes [(0x300, 0xFF), (0x301, 0xFF), (0x302, 0xFF)], v := regs [(1, 0x3C), (2, 0x1E)] }).fb =
        cells [(60, 30), (61, 30), (62, 30), (63, 30), (60, 31), (61, 31), (62, 31), (63, 31)] ∧
      (after 0xD122 { State.reset with i := 0xFFF, mem := bytes [(0xFFF, 0x80)] }).fb =
        cells [(0, 0), (0, 1), (1, 1), (2, 1), (3, 1)] := by decide

/-- SKP uses the low nibble (T4.5, T4.2). -/
theorem test_skp :
    (after 0xE29E { State.reset with key := keys [5], v := regs [(2, 0x15)] }).pc = 0x204 ∧
      (after 0xE29E { State.reset with v := regs [(2, 5)] }).pc = 0x202 := by decide

/-- SKNP (T4.3, T4.4). -/
theorem test_sknp :
    (after 0xE2A1 { State.reset with key := keys [5], v := regs [(2, 5)] }).pc = 0x202 ∧
      (after 0xE2A1 { State.reset with v := regs [(2, 5)] }).pc = 0x204 := by decide

/-- LD Vx, DT reads before the Timer-Tick (T4.6). -/
theorem test_ld_v_dt :
    let t := after 0xF107 { State.reset with dt := 5 }
    t.v = regs [(1, 5)] ∧ t.dt = 4 := by decide

/-- LD Vx, K: the lowest key wins (T4.9); blocked, pc stays and the timers tick (T4.11). -/
theorem test_ld_v_k :
    let t := after 0xF20A { State.reset with pc := 0x206, key := keys [0xC, 0xA] }
    let u := after 0xF20A { State.reset with pc := 0x206, dt := 3 }
    t.v = regs [(2, 0x0A)] ∧ t.pc = 0x208 ∧ u.v = regs [] ∧ u.pc = 0x206 ∧ u.dt = 2 := by decide

/-- LD DT, Vx, then the Timer-Tick (T4.12). -/
theorem test_ld_dt_v : (after 0xF015 { State.reset with v := regs [(0, 3)] }).dt = 2 := by decide

/-- LD ST, Vx: writing 1 sounds in its own cycle (T4.14), writing 0 does not (T4.16). -/
theorem test_ld_st_v :
    let t := after 0xF018 { State.reset with v := regs [(0, 1)] }
    let u := after 0xF018 { State.reset with st := 5 }
    t.st = 0 ∧ t.out = ⟨true, none⟩ ∧ u.st = 0 ∧ u.out = ⟨false, none⟩ := by decide

/-- ADD I, Vx: 12-bit overflow (T5.3), and x = F (T5.5). -/
theorem test_add_i :
    let t := after 0xF11E { State.reset with i := 0xFFF, v := regs [(1, 1)] }
    let u := after 0xFF1E { State.reset with i := 0x001, v := regs [(15, 0xFF)] }
    t.i = 0 ∧ t.v[15] = 1 ∧ u.i = 0x100 ∧ u.v[15] = 0 := by decide

/-- LD F, Vx (T5.7). -/
theorem test_ld_f : (after 0xF029 { State.reset with v := regs [(0, 0x1A)] }).i = 0x032 := by decide

/-- LD B, Vx wraps into the font; I is unchanged (T5.13). -/
theorem test_ld_b :
    let t := after 0xFA33 { State.reset with i := 0xFFE, v := regs [(10, 0xFE)] }
    t.mem.read 0xFFE = 2 ∧ t.mem.read 0xFFF = 5 ∧ t.mem.read 0 = 4 ∧ t.mem.read 1 = 0x90 ∧ t.i = 0xFFE := by decide

/-- LD [I], Vx wraps (T5.16). -/
theorem test_ld_mem_v :
    let t := after 0xF355 { State.reset with i := 0xFFE, v := regs [(0, 0x11), (1, 0x22), (2, 0x33), (3, 0x44)] }
    t.mem.read 0xFFE = 0x11 ∧ t.mem.read 0xFFF = 0x22 ∧ t.mem.read 0 = 0x33 ∧ t.mem.read 1 = 0x44 ∧ t.i = 0x002 := by
  decide

/-- LD Vx, [I] (T5.17). -/
theorem test_ld_v_mem :
    let t := after 0xF265 { State.reset with i := 0x300, mem := bytes [(0x300, 1), (0x301, 2), (0x302, 3), (0x303, 4)] }
    t.v = regs [(0, 1), (1, 2), (2, 3)] ∧ t.i = 0x303 := by decide

/-! ## The cycle -/

/-- An unrecognized word with ST = 1: the report and the tone (T6.8). -/
theorem test_unrecognized :
    let t := after 0xFFFF { State.reset with dt := 2, st := 1 }
    t.pc = 0x202 ∧ t.dt = 1 ∧ t.st = 0 ∧ t.halted = none ∧
      t.out = ⟨true, some ⟨.unrecognized, 0xFFFF, 0x200, some 0xF0FF⟩⟩ := by decide

/-- A halted tick changes nothing (T7.3). -/
theorem test_halted :
    let s := { State.reset with halted := some .stackUnderflow, dt := 4, mem := bytes [(0x200, 0x60), (0x201, 1)] }
    nextOf (step s) = s := by decide

/-- Fetch at 0xFFF (T7.7) and at an odd pc (T7.8). -/
theorem test_fetch_edges :
    let t := nextOf (step { State.reset with pc := 0xFFF, mem := bytes [(0xFFF, 0x60)] })
    let u := nextOf (step { State.reset with pc := 0x201, mem := bytes [(0x201, 0x60), (0x202, 0x42)] })
    t.v = regs [(0, 0xF0)] ∧ t.pc = 0x001 ∧ u.v = regs [(0, 0x42)] ∧ u.pc = 0x203 := by decide

/-- The load of the first program of L3 (P1) puts its image at 0x200. -/
theorem test_load :
    ((State.reset.load [0x60, 0x05, 0x61, 0x00]).map fun t => (t.mem.read 0x200, t.mem.read 0x202, t.fetchWord)) =
      some (0x60, 0x61, 0x6005) := by decide

/-- A byte that an address reads as unlisted is not listed. -/
theorem test_memory_canonical :
    bytes [(0x300, 5), (0x200, 1), (0x300, 0)] = [(0x200, 1)] ∧ bytes [(0, 0xF0)] = [] := by decide

/-! ## Witnesses: for every statement with hypotheses, a state and operands that meet them all -/

/-- A running state with the two bytes of a word at 0x200. -/
def at200 (hi lo : Byte) : State := { State.reset with mem := bytes [(0x200, hi), (0x201, lo)] }

/-- StepRunsTheDecodedInstruction: DRW with the largest height. -/
theorem witness_step_runs :
    let s := at200 0xD1 0x2F
    s.halted = none ∧ decode s.bytesAtPc = .instr (.drw 1 2 15) ∧ (Instr.drw 1 2 15).wf = true ∧
      isNext (exec (.drw 1 2 15) { s with pc := (s.pc + 2) &&& 0xFFF, out := ⟨false, none⟩ }) = true := by decide

/-- UnrecognizedWordIsReportedAndSkipped: both masks, and pc at the top of memory. -/
theorem witness_unrecognized :
    (at200 0xFF 0xFF).halted = none ∧ decode (at200 0xFF 0xFF).bytesAtPc = .unrecognized 0xF0FF ∧
      decode (at200 0x80 0x08).bytesAtPc = .unrecognized 0xF00F ∧
      (let s := { State.reset with pc := 0xFFF }
       s.halted = none ∧ decode s.bytesAtPc = .unrecognized 0xF0FF) := by decide

/-- HaltedTickChangesNothing and OnlyResetLeavesTheHaltedState: a halted state, and a tick as the move. -/
theorem witness_halted :
    let c : Session := ⟨.running, { at200 0x60 0x01 with halted := some .stackOverflow }⟩
    c.state.halted = some .stackOverflow ∧ HostMove.tick ≠ .reset ∧ (hostMove .tick c).isSome = true := by decide

/-- EveryStepCompletesOrReportsOneCondition: no report; a report and running; a report and halted. -/
theorem witness_reports :
    (nextOf (step (at200 0x00 0xE0))).out.report = none ∧
      (nextOf (step (at200 0xFF 0xFF))).out.report = some ⟨.unrecognized, 0xFFFF, 0x200, some 0xF0FF⟩ ∧
      (nextOf (step (at200 0x00 0xEE))).out.report = some ⟨.stackUnderflow, 0x00EE, 0x200, none⟩ ∧
      (nextOf (step (at200 0x00 0xEE))).halted ≠ none := by decide

/-- TimersCountDownOncePerCycle: a cycle of no LD DT and no LD ST with ST = 1, which goes on and sounds; and one that
halts. -/
theorem witness_timers :
    let s := { at200 0x60 0x01 with st := 1, dt := 255 }
    let u := executeWord s.bytesAtPc { s with pc := (s.pc + 2) &&& 0xFFF, out := ⟨false, none⟩ }
    s.halted = none ∧ isNext u = true ∧ (nextOf u).halted = none ∧ decode s.bytesAtPc = .instr (.ldByte 0 1) ∧
      (nextOf (step s)).out.tone = true ∧ (nextOf (step (at200 0x00 0xEE))).halted ≠ none := by decide

/-- RegistersChangeOnlyByTheirWriters: a destination, VF as a flag, and the last register of a load. -/
theorem witness_register_changes :
    (let s := at200 0x60 0x01
     isNext (step s) = true ∧ (nextOf (step s)).v[(0 : Reg)] ≠ s.v[(0 : Reg)]) ∧
      (let s := { at200 0x81 0x24 with v := regs [(1, 255), (2, 1)] }
       isNext (step s) = true ∧ (nextOf (step s)).v[vf] ≠ s.v[vf]) ∧
      (let s := at200 0xFF 0x65
       isNext (step s) = true ∧ (nextOf (step s)).v[(15 : Reg)] ≠ s.v[(15 : Reg)]) := by decide

/-- MemoryChangesOnlyByStores: the third byte of LD B, and the sixteenth of LD [I], VF, which wraps to 0x00E. -/
theorem witness_memory_changes :
    (let s := { at200 0xF0 0x33 with i := 0x300, v := regs [(0, 7)] }
     isNext (step s) = true ∧ (nextOf (step s)).mem.read 0x302 ≠ s.mem.read 0x302) ∧
      (let s := { at200 0xFF 0x55 with i := 0xFFF, v := regs [(15, 1)] }
       isNext (step s) = true ∧ (nextOf (step s)).mem.read 0x00E ≠ s.mem.read 0x00E) := by decide

/-- FramebufferAndDirtyChangeOnlyByClsAndDrw: a changed cell, a changed dirty flag, and dirty already set. -/
theorem witness_framebuffer_changes :
    (let s := at200 0xD0 0x05
     isNext (step s) = true ∧ (nextOf (step s)).fb ≠ s.fb ∧ (nextOf (step s)).dirty ≠ s.dirty) ∧
      (let s := at200 0x00 0xE0
       isNext (step s) = true ∧ (nextOf (step s)).dirty ≠ s.dirty) ∧
      (let s := { at200 0x60 0x01 with dirty := true }
       isNext (step s) = true ∧ s.dirty = true) := by decide

/-- StackIndexKeysAndHaltChangeOnlyByTheirOperations: a changed stack, a changed run state, a changed I. -/
theorem witness_stack_index_changes :
    (nextOf (step (at200 0x23 0x00))).stack ≠ [] ∧ (nextOf (step (at200 0x00 0xEE))).halted ≠ none ∧
      (nextOf (step (at200 0xF0 0x65))).i ≠ 0 ∧ isNext (step (at200 0x23 0x00)) = true ∧
      isNext (step (at200 0x00 0xEE)) = true ∧ isNext (step (at200 0xF0 0x65)) = true := by decide

/-- OutputDirtyAndSoundTimerAreNeverRead and StepKeepsStatesWellFormed: a well-formed state at the bounds (pc and I at
0xFFF, 16 entries on the stack) that steps. -/
theorem witness_well_formed_step :
    let s := { State.reset with pc := 0xFFF, i := 0xFFF, stack := List.replicate 16 0xFFF, mem := [(0xFFF, 0x60)] }
    s.wf ∧ isNext (step s) = true := by
  refine ⟨⟨by decide, by decide, by decide, ?_, by decide⟩, by decide⟩
  intro a ha
  rw [List.eq_of_mem_replicate ha]
  decide

/-- The session after an allowed move; the same session where the move is not allowed. -/
def moved (m : HostMove) (c : Session) : Session :=
  match hostMove m c with
  | some p => p.1
  | none => c

theorem reachable_moved (m : HostMove) (c : Session) (h : Reachable c) : Reachable (moved m c) := by
  unfold moved
  split
  · exact .move m c _ _ h ‹_›
  · exact h

/-- Two loads after the first reset, of a jump to itself and then of LD V0, 0x42. -/
def loadedTwice : Session := moved (.load [0x60, 0x42]) (moved (.load [0x12, 0x00]) Session.start)

/-- Load after an accepted load and before the first tick is accepted (R225). -/
theorem test_second_load :
    (moved (.load [0x12, 0x00]) Session.start).phase = .loaded ∧ loadedTwice.phase = .loaded ∧
      loadedTwice.state.fetchWord = 0x6042 ∧
      (hostMove (.load []) (moved .tick loadedTwice)).isNone = true := by decide

/-- ReachableSessionsAreWellFormed: the first reset, and a session after two loads, a key and a tick. -/
theorem witness_reachable : Reachable Session.start := .start

theorem witness_reachable_loaded_and_ticked :
    let c := moved .tick (moved (.setKeys (keys [3])) loadedTwice)
    Reachable c ∧ c.phase = .running ∧ c.state.v = regs [(0, 0x42)] ∧ c.state.key = keys [3] :=
  ⟨reachable_moved _ _ (reachable_moved _ _ (reachable_moved _ _ (reachable_moved _ _ .start))), by decide⟩

/-- HostMovesKeepStatesWellFormed: a well-formed state at the bounds, and every move allowed on it. -/
theorem witness_host_moves :
    let c : Session := ⟨.loaded, { State.reset with pc := 0xFFF, i := 0xFFF, mem := [(0xFFF, 0x60)] }⟩
    c.state.wf ∧ ∀ m ∈ [HostMove.reset, .load [1], .setKeys (keys [3]), .tick, .readFramebuffer, .clearDirty],
      (hostMove m c).isSome = true :=
  ⟨⟨by decide, by decide, by decide, by simp [State.reset], by decide⟩, by decide⟩

/-- LoadAcceptsOrRejectsTheImage: sessions before the first tick in each phase, images of 3584 and 3585 bytes; a ticked
session. -/
theorem witness_load :
    Session.start.phase ≠ .running ∧ loadedTwice.phase ≠ .running ∧ Phase.refusedLoad ≠ .running ∧
      (List.replicate 3584 (0x60 : Byte)).length ≤ 3584 ∧
      3584 < (List.replicate 3585 (0x60 : Byte)).length ∧
      ((hostMove .tick Session.start).map fun p => p.1.phase) = some .running := by
  exact ⟨by decide, by decide, by decide, by rw [List.length_replicate], by rw [List.length_replicate]; decide, rfl⟩

/-- HostMovesDoWhatTheInterfaceSays: a session that may be ticked. -/
theorem witness_tick : Session.start.phase ≠ .refusedLoad ∧ isNext (step Session.start.state) = true := by decide

/-- IdleSelfJumpOnlyCountsTimers: the self-jump at 0x200. -/
theorem witness_idle : (at200 0x12 0x00).idle = true := by decide

/-- DecodeOfEncodeIsTheInstruction and EncodeOfDecodeKeepsAllBitsTheDecoderReads: words of the three kinds. -/
theorem witness_encoding :
    (Instr.drw 0 0 15).wf = true ∧ decode 0x0FEE = .instr .ret ∧ decode 0x512F = .instr (.seReg 1 2) ∧
      decode 0xDABF = .instr (.drw 10 11 15) := by decide

/-- CallPushesTheReturnAddress (15 entries) and CallOnFullStackHalts (16 entries, in a cycle). -/
theorem witness_call :
    (List.replicate 15 (0x202 : Word)).length < 16 ∧
      (let s := { at200 0x23 0x00 with stack := List.replicate 16 0x202 }
       s.halted = none ∧ 16 ≤ s.stack.length ∧ decode s.bytesAtPc = .instr (.call 0x300)) := by decide

/-- RetPopsTheReturnAddress and RetOnEmptyStackHalts (in a cycle). -/
theorem witness_ret :
    ({ State.reset with stack := [0xFFF] } : State).stack = 0xFFF :: [] ∧
      (at200 0x00 0xEE).halted = none ∧ (at200 0x00 0xEE).stack = [] ∧ decode (at200 0x00 0xEE).bytesAtPc = .instr .ret := by
  decide

/-- SkipsAdvancePcByFourOrTwo: each of the six, with the condition true and false. -/
theorem witness_skips :
    (at200 0x30 0x00).halted = none ∧
      (decode (at200 0x30 0x00).bytesAtPc = .instr (.seByte 0 0) ∧ skipCondition (.seByte 0 0) (at200 0x30 0x00) = some true) ∧
      (decode (at200 0x30 0x01).bytesAtPc = .instr (.seByte 0 1) ∧ skipCondition (.seByte 0 1) (at200 0x30 0x01) = some false) ∧
      (decode (at200 0x40 0x01).bytesAtPc = .instr (.sneByte 0 1) ∧ skipCondition (.sneByte 0 1) (at200 0x40 0x01) = some true) ∧
      (decode (at200 0x40 0x00).bytesAtPc = .instr (.sneByte 0 0) ∧ skipCondition (.sneByte 0 0) (at200 0x40 0x00) = some false) ∧
      (decode (at200 0x50 0x10).bytesAtPc = .instr (.seReg 0 1) ∧ skipCondition (.seReg 0 1) (at200 0x50 0x10) = some true) ∧
      (decode (at200 0x90 0x10).bytesAtPc = .instr (.sneReg 0 1) ∧ skipCondition (.sneReg 0 1) (at200 0x90 0x10) = some false) ∧
      (decode (at200 0xE0 0x9E).bytesAtPc = .instr (.skp 0) ∧ skipCondition (.skp 0) (at200 0xE0 0x9E) = some false) ∧
      (decode (at200 0xE0 0xA1).bytesAtPc = .instr (.sknp 0) ∧ skipCondition (.sknp 0) (at200 0xE0 0xA1) = some true) := by
  decide

/-- The four skips of `witness_skips` on their other side. -/
theorem witness_skips_other_side :
    let s := { State.reset with v := regs [(0, 7)], key := keys [7] }
    skipCondition (.seReg 0 1) s = some false ∧ skipCondition (.sneReg 0 1) s = some true ∧
      skipCondition (.skp 0) s = some true ∧ skipCondition (.sknp 0) s = some false := by decide

/-- AddSetsCarryLast, SubtractionsSetStrictNotBorrow, ShiftsMoveVxByOneBit: a destination that is not VF, and a register
outside the destinations; RndMasksAFreeByte: a bit that is 0 in kk. -/
theorem witness_destinations :
    (14 : Reg) ≠ vf ∧ (0 : Reg) ∉ [(14 : Reg), vf] ∧ (0xFE : Byte).getLsbD 0 = false ∧ (0xFF : Byte) = 0xFF := by decide

/-- DrawingTwiceRestoresTheFramebuffer: glyph 0 at V1, V2 with a collision, and at VF, V2 with VF = 0 before and after. -/
theorem witness_draw_twice :
    (let s := { State.reset with v := regs [(1, 62), (2, 30)], fb := cells [(62, 30)] }
     let t := nextOf (exec (.drw 1 2 5) s)
     isNext (exec (.drw 1 2 5) s) = true ∧ t.v[(1 : Reg)] = s.v[(1 : Reg)] ∧ t.v[(2 : Reg)] = s.v[(2 : Reg)] ∧
       t.v[vf] = 1 ∧ isNext (exec (.drw 1 2 5) t) = true) ∧
      (let s := State.reset
       let t := nextOf (exec (.drw 15 2 5) s)
       isNext (exec (.drw 15 2 5) s) = true ∧ t.v[vf] = s.v[vf] ∧ isNext (exec (.drw 15 2 5) t) = true) := by decide

/-- DrawAfterClearSetsAsManyCellsAsSpriteBits. -/
theorem witness_draw_after_clear :
    let s := { State.reset with v := regs [(1, 62), (2, 30)], fb := cells [(62, 30)] }
    isNext (exec .cls s) = true ∧ isNext (exec (.drw 1 2 15) (nextOf (exec .cls s))) = true := by decide

/-- TimerInstructionsWithinTheirCycle. -/
theorem witness_timer_instructions :
    (at200 0xFF 0x07).halted = none ∧ decode (at200 0xFF 0x07).bytesAtPc = .instr (.ldVDt 15) ∧
      decode (at200 0xFF 0x15).bytesAtPc = .instr (.ldDtV 15) ∧
      decode (at200 0xFF 0x18).bytesAtPc = .instr (.ldStV 15) := by decide

/-- KeyWaitTakesTheLowestKeyOrRewinds: no key; the least key 0, and 15. -/
theorem witness_key_wait :
    (∀ k : Reg, State.reset.key[k] = false) ∧
      ((keys [0, 9])[(0 : Reg)] = true ∧ ∀ j : Reg, j < 0 → (keys [0, 9])[j] = false) ∧
      ((keys [15])[(15 : Reg)] = true ∧ ∀ j : Reg, j < 15 → (keys [15])[j] = false) := by decide

/-- BlockedKeyWaitHoldsPcWhileTimersRun. -/
theorem witness_blocked_key_wait :
    let s := at200 0xF2 0x0A
    s.halted = none ∧ decode s.bytesAtPc = .instr (.ldVK 2) ∧ ∀ k : Reg, s.key[k] = false := by decide

/-- LdBStoresTheThreeDecimalDigits, LdMemVStoresV0ToVx, LdVMemLoadsV0ToVx: a byte outside the stored ones at the wrap, a
register inside the range and one outside. -/
theorem witness_ranges :
    let s := { State.reset with i := 0xFFE }
    (0x001 ≠ cellOf (s.indexed 0) ∧ 0x001 ≠ cellOf (s.indexed 1) ∧ 0x001 ≠ cellOf (s.indexed 2)) ∧
      (∀ r : Reg, r ≤ 14 → 0x00D ≠ cellOf (s.indexed r.val)) ∧ (14 : Reg) ≤ 14 ∧ (14 : Reg) < 15 := by decide

/-- LoadAfterStoreRestoresTheRegisters: sixteen registers over the wrap. -/
theorem witness_load_after_store :
    let s := { State.reset with i := 0xFFE, v := regs [(0, 1), (15, 2)] }
    let t := nextOf (exec (.ldMemV 15) s)
    isNext (exec (.ldMemV 15) s) = true ∧
      isNext (exec (.ldVMem 15) { t with v := regs [(3, 9)], i := s.i }) = true := by decide

/-- StoredBytesAreTheNextWordFetched: the store at 0x202, the next word; k at both ends of its range. -/
theorem witness_stored_bytes_fetched :
    (let s := { at200 0xF1 0x55 with i := 0x202 }
     s.halted = none ∧ decode s.bytesAtPc = .instr (.ldMemV 1) ∧ isNext (step s) = true ∧
       (0 : Fin 15).val < (1 : Reg).val ∧ cellOf (s.indexed (0 : Fin 15).val) = (nextOf (step s)).pc.toNat % 4096) ∧
      (let s := { at200 0xFF 0x55 with i := 0x1F4 }
       s.halted = none ∧ decode s.bytesAtPc = .instr (.ldMemV 15) ∧ isNext (step s) = true ∧
         (14 : Fin 15).val < (15 : Reg).val ∧
         cellOf (s.indexed (14 : Fin 15).val) = (nextOf (step s)).pc.toNat % 4096) := by decide

end Sys2Proof.Tests
end

section
/-! The statements of Fetch (spec/30_encoding.md section 5). -/

namespace Sys2Proof.Machine

/-- The word composed of two bytes is big-endian: the first byte counts 256 (R54). -/
theorem toNat_composeWord (hi lo : Byte) : (composeWord hi lo).toNat = 256 * hi.toNat + lo.toNat := by
  rw [composeWord, toNat_append]
  omega

/-- Settles O1: Fetch reads the two bytes at pc, and a word composed of two bytes has their big-endian value. -/
theorem fetchReadsTwoBytesBigEndian : Obligations.FetchReadsTwoBytesBigEndian := by
  intro s
  have hword : s.fetchWord = s.bytesAtPc := s.fetchWord_eq
  refine ⟨hword, ?_⟩
  rw [hword]
  exact toNat_composeWord _ _

end Sys2Proof.Machine
end

section
/-! The statements of control flow (spec/40_control_flow.md). -/

namespace Sys2Proof.Machine

/-! ## What a skip does -/

/-- The two bytes of one instruction added to pc, as the mask leaves them (R27, R86). -/
theorem toNat_add_two_and_mask (a : Word) : ((a + 2) &&& Config.addrMask).toNat = (a.toNat + 2) % 4096 := by
  rw [toNat_and_mask, BitVec.toNat_add, show (2 : Word).toNat = 2 from rfl]
  omega

/-- Each of the six skips is `skipIf` of its condition (R103 to R106, R170, R171). -/
theorem exec_eq_skipIf {i : Instr} {s : State} {c : Bool} (h : skipCondition i s = some c) :
    exec i s = .next (s.skipIf c) := by
  cases i with
  | seByte | sneByte | seReg | sneReg => cases h; rfl
  | skp | sknp => cases h; rw [← keyDown_lowNibble]; rfl
  | _ => cases h

/-- Fetch changes neither the registers nor the keys, and a skip's condition reads nothing else. -/
theorem skipCondition_fetch (i : Instr) (s : State) : skipCondition i s.fetch = skipCondition i s := by
  cases i <;> rfl

/-- pc after Fetch and a skip: one more word over if the condition holds (R109). -/
theorem toNat_pc_skipIf_fetch (s : State) (c : Bool) :
    (s.fetch.skipIf c).pc.toNat = (s.pc.toNat + if c then 4 else 2) % 4096 := by
  rw [State.skipIf_eq]
  cases c with
  | false => exact toNat_add_two_and_mask s.pc
  | true =>
    change ((s.fetch.pc + 2) &&& Config.addrMask).toNat = (s.pc.toNat + 4) % 4096
    rw [toNat_add_two_and_mask, State.fetch_pc, toNat_add_two_and_mask]
    omega

@[simp] theorem State.finishCycle_pc (s : State) : s.finishCycle.pc = s.pc := by
  rw [State.finishCycle_frame]

/-! ## The statements -/

/-- Settles O34: the cycle of a skip is Fetch, `skipIf` of the condition before the step, and the Timer-Tick, which
leaves pc alone. -/
theorem skipsAdvancePcByFourOrTwo : Obligations.SkipsAdvancePcByFourOrTwo := by
  intro s i c hrun hdec hc
  have hexec : exec i s.fetch = .next (s.fetch.skipIf c) :=
    exec_eq_skipIf ((skipCondition_fetch i s).trans hc)
  have hstep : step s = .next (s.fetch.skipIf c).finishCycle :=
    step_running s _ hrun ((executeWord_of_decode s i hdec).trans hexec)
  refine ⟨_, hstep, ?_⟩
  rw [State.finishCycle_pc]
  exact toNat_pc_skipIf_fetch s c

/-- Settles O26: JP sets pc to its address, which the mask leaves as it is. -/
theorem jpSetsPcToTheAddress : Obligations.JpSetsPcToTheAddress := by
  intro nnn s
  change Host.Outcome.next { s with pc := zextAddr nnn &&& Config.addrMask } = _
  rw [zextAddr_and_mask]
  rfl

/-- Settles O32: both skips are `skipIf` of their condition, read as a proposition. -/
theorem skipsOnAByteCompareWithIt : Obligations.SkipsOnAByteCompareWithIt := by
  intro x kk s
  constructor
  · have hexec : exec (.seByte x kk) s = .next (s.skipIf (s.v[x] == kk)) := exec_eq_skipIf rfl
    simp only [hexec, State.skipIf_eq, beq_iff_eq]
  · have hexec : exec (.sneByte x kk) s = .next (s.skipIf (s.v[x] != kk)) := exec_eq_skipIf rfl
    simp only [hexec, State.skipIf_eq, bne_iff_ne]

end Sys2Proof.Machine
end

section
/-! The statements of arithmetic (spec/41_arithmetic.md). -/

namespace Sys2Proof.Machine

/-- An instruction whose whole effect is one register write completes with that value in `Vx` and everything else as it
was. -/
theorem writes_one_register {i : Instr} {s : State} {x : Reg} {b : Byte} (h : exec i s = .next (s.setV x b)) :
    ∃ t, exec i s = .next t ∧ OnlyRegs [x] s t ∧ t.v[x] = b :=
  ⟨s.setV x b, h, onlyRegs_setV s x b, v_setV_same s x b⟩

/-- Settles O35: each of the three is one register write, and a sum of bytes wraps modulo 256 (R131). -/
theorem loadsAndAddImmediateWriteOneRegister : Obligations.LoadsAndAddImmediateWriteOneRegister := by
  intro x y kk s
  refine ⟨writes_one_register rfl, ?_, writes_one_register rfl⟩
  have hadd : exec (.addByte x kk) s = .next (s.setV x (s.v[x] + kk)) := rfl
  obtain ⟨t, hexec, hframe, hsum⟩ := writes_one_register hadd
  refine ⟨t, hexec, hframe, ?_⟩
  rw [hsum]
  exact BitVec.toNat_add s.v[x] kk

end Sys2Proof.Machine
end

section
/-! The statements of the display (spec/42_display.md). -/

namespace Sys2Proof.Machine

/-! ## What a flag byte says -/

theorem flagByte_eq_zero_or_one (c : Bool) : flagByte c = 0 ∨ flagByte c = 1 := by
  cases c
  · exact .inl rfl
  · exact .inr rfl

theorem flagByte_eq_one_iff (c : Bool) : flagByte c = 1 ↔ c = true := by
  cases c <;> decide

/-! ## What a draw reports, said through the cells before and after it -/

/-- A cell has become unset exactly where a lit cell was set, so `collided` reports just that (R154). -/
theorem Draw.Drew.collided_iff_unset {fb : Framebuffer} {lit : Fin 32 → Fin 64 → Bool} {d : Draw}
    (h : Draw.Drew fb lit d) :
    d.collided = true ↔ ∃ row col, Framebuffer.cell fb row col = true ∧ Framebuffer.cell d.fb row col = false := by
  have hunset : ∀ row col, (lit row col = true ∧ Framebuffer.cell fb row col = true) ↔
      (Framebuffer.cell fb row col = true ∧ Framebuffer.cell d.fb row col = false) := by
    intro row col
    rw [h.cell]
    cases Framebuffer.cell fb row col <;> simp
  simp only [h.collided, hunset]

/-- A cell differs exactly where it was lit, so `changed` reports just that (R155). -/
theorem Draw.Drew.changed_iff_cell_ne {fb : Framebuffer} {lit : Fin 32 → Fin 64 → Bool} {d : Draw}
    (h : Draw.Drew fb lit d) :
    d.changed = true ↔ ∃ row col, Framebuffer.cell d.fb row col ≠ Framebuffer.cell fb row col := by
  have hdiffers : ∀ row col, lit row col = true ↔ Framebuffer.cell d.fb row col ≠ Framebuffer.cell fb row col := by
    intro row col
    rw [h.cell]
    cases lit row col <;> simp
  simp only [h.changed, hdiffers]

/-! ## The effect of DRW -/

/-- Everything DRW does: the draw's cells, VF from its collision and dirty from its change (R151, R154, R155). -/
theorem exec_drw (x y : Reg) (n : Nat) (s : State) :
    exec (.drw x y n) s = .next
      { s.setV vf (flagByte (s.drawSprite x y n).collided) with
        fb := (s.drawSprite x y n).fb
        dirty := s.dirty || (s.drawSprite x y n).changed } := rfl

/-! ## The statements -/

/-- Settles O43: VF is the flag of the draw's collision and dirty gains its change; both are then read off the cells,
because a draw flips exactly the cells it lights. -/
theorem drwReportsCollisionAndDirt : Obligations.DrwReportsCollisionAndDirt := by
  intro x y n s
  have hdrew : Draw.Drew s.fb (spriteCovers s x y n) (s.drawSprite x y n) := s.drew_drawSprite x y n
  have hvf : (s.setV vf (flagByte (s.drawSprite x y n).collided)).v[vf] = flagByte (s.drawSprite x y n).collided :=
    v_setV_same s vf _
  refine ⟨_, exec_drw x y n s, ?_, ?_, ?_⟩
  · rw [hvf]
    exact flagByte_eq_zero_or_one _
  · rw [hvf, flagByte_eq_one_iff]
    exact hdrew.collided_iff_unset
  · rw [Bool.or_eq_true]
    exact or_congr_right hdrew.changed_iff_cell_ne

end Sys2Proof.Machine
end

section
/-! The statements of input and timers (spec/43_input_timers.md). -/

namespace Sys2Proof.Machine

/-- Settles O46: both skips are `skipIf` of the key that the low nibble of V[x] names (R176), SKNP of its negation. -/
theorem keySkipsTestTheLowNibble : Obligations.KeySkipsTestTheLowNibble := by
  intro x s
  have hindex : s.v[x].toNat % 16 < 16 := Nat.mod_lt _ (by decide)
  constructor
  · have hexec : exec (.skp x) s = .next (s.skipIf s.key[s.v[x].toNat % 16]) := exec_eq_skipIf rfl
    simp only [hexec, State.skipIf_eq]
  · have hexec : exec (.sknp x) s = .next (s.skipIf !s.key[s.v[x].toNat % 16]) := exec_eq_skipIf rfl
    simp only [hexec, State.skipIf_eq, Bool.not_eq_true']

end Sys2Proof.Machine
end

section
/-! The statements of the index register and memory (spec/44_index_memory.md). -/

namespace Sys2Proof.Machine

/-! ## What an instruction leaves in I -/

/-- The index after an advance by `k` (R194, R195): the mask of a write to I is the mask of a data address. -/
theorem toNat_indexed_and_mask (s : State) (k : Nat) :
    (s.indexed k &&& Config.addrMask).toNat = (s.i.toNat + k) % 4096 :=
  cellOf_indexed s k

/-- A glyph address is five times the digit (R192); it is small enough for 16 bits. -/
theorem toNat_glyphAddr (b : Byte) : (glyphAddr b).toNat = 5 * (b.toNat % 16) := by
  rw [glyphAddr, val_lowNibble, BitVec.toNat_ofNat]
  omega

/-- A glyph address lies below 4096, so the mask of a write to I leaves it as it is (R25). -/
theorem glyphAddr_and_mask (b : Byte) : glyphAddr b &&& Config.addrMask = glyphAddr b := by
  have hdigit : b.toNat % 16 < 16 := Nat.mod_lt _ (by decide)
  apply and_mask_of_lt
  rw [toNat_glyphAddr]
  omega

/-! ## The decimal digits of a byte -/

theorem toNat_bcdHundreds (v : Byte) : (bcdHundreds v).toNat = v.toNat / 100 := by
  have := v.isLt
  rw [bcdHundreds, BitVec.toNat_ofNat]
  omega

theorem toNat_bcdTens (v : Byte) : (bcdTens v).toNat = v.toNat / 10 % 10 := by
  rw [bcdTens, BitVec.toNat_ofNat]
  omega

theorem toNat_bcdUnits (v : Byte) : (bcdUnits v).toNat = v.toNat % 10 := by
  rw [bcdUnits, BitVec.toNat_ofNat]
  omega

/-! ## Three bytes stored from I on -/

/-- The memory after `h`, `t` and `u` are stored, in this order, at I, I + 1 and I + 2 (the accesses of R193). -/
def State.store3 (s : State) (h t u : Byte) : Memory :=
  ((s.mem.store (s.indexed 0) h).store (s.indexed 1) t).store (s.indexed 2) u

/-- The three cells are different, also at the wrap, so each keeps its byte and every other byte is as it was. -/
theorem State.store3_spec (s : State) (h t u : Byte) :
    (s.store3 h t u).read (cellOf (s.indexed 0)) = h ∧ (s.store3 h t u).read (cellOf (s.indexed 1)) = t ∧
      (s.store3 h t u).read (cellOf (s.indexed 2)) = u ∧
      ∀ a, a ≠ cellOf (s.indexed 0) → a ≠ cellOf (s.indexed 1) → a ≠ cellOf (s.indexed 2) →
        (s.store3 h t u).read a = s.mem.read a := by
  have h01 : cellOf (s.indexed 0) ≠ cellOf (s.indexed 1) :=
    mt (cellOf_indexed_inj s 0 1 (by decide) (by decide)) (by decide)
  have h02 : cellOf (s.indexed 0) ≠ cellOf (s.indexed 2) :=
    mt (cellOf_indexed_inj s 0 2 (by decide) (by decide)) (by decide)
  have h12 : cellOf (s.indexed 1) ≠ cellOf (s.indexed 2) :=
    mt (cellOf_indexed_inj s 1 2 (by decide) (by decide)) (by decide)
  refine ⟨?_, ?_, ?_, fun a h0 h1 h2 => ?_⟩
  · simp [State.store3, h02, h01]
  · simp [State.store3, h12]
  · simp [State.store3]
  · simp [State.store3, h2, h1, h0]

/-! ## The effect of each instruction -/

theorem exec_ldI (nnn : Addr) (s : State) : exec (.ldI nnn) s = .next { s with i := zextAddr nnn } := by
  rw [← zextAddr_and_mask]
  rfl

theorem exec_ldF (x : Reg) (s : State) : exec (.ldF x) s = .next { s with i := glyphAddr s.v[x] } := by
  rw [← glyphAddr_and_mask]
  rfl

theorem exec_ldB (x : Reg) (s : State) :
    exec (.ldB x) s = .next
      { s with mem := s.store3 (bcdHundreds s.v[x]) (bcdTens s.v[x]) (bcdUnits s.v[x]) } := rfl

/-- LD [I], Vx writes the memory of its store loop and I. -/
theorem exec_ldMemV (x : Reg) (s : State) :
    exec (.ldMemV x) s = .next
      { s with mem := (s.storeRegs x).mem, i := s.indexed (x.val + 1) &&& Config.addrMask } := by
  obtain ⟨hframe, -⟩ := s.storeRegs_spec x
  exact congrArg (fun t => Host.Outcome.next (t.setI (s.indexed (x.val + 1)))) hframe

/-- LD Vx, [I] writes the registers of its load loop and I. -/
theorem exec_ldVMem (x : Reg) (s : State) :
    exec (.ldVMem x) s = .next
      { s with v := (s.loadRegs x).v, i := s.indexed (x.val + 1) &&& Config.addrMask } := by
  obtain ⟨hframe, -⟩ := s.loadRegs_spec x
  exact congrArg (fun t => Host.Outcome.next (t.setI (s.indexed (x.val + 1)))) hframe

/-! ## The statements -/

/-- Settles O51: each writes I alone, with an address below 4096 that the mask leaves as it is. -/
theorem ldIAndLdFSetTheIndex : Obligations.LdIAndLdFSetTheIndex := by
  intro nnn x s
  constructor
  · exact ⟨_, exec_ldI nnn s, rfl, toNat_zextAddr nnn⟩
  · exact ⟨_, exec_ldF x s, rfl, toNat_glyphAddr s.v[x]⟩

/-- Settles O53: the instruction is three stores of the digits at three different cells. -/
theorem ldBStoresTheThreeDecimalDigits : Obligations.LdBStoresTheThreeDecimalDigits := by
  intro x s
  obtain ⟨hhundreds, htens, hunits, hrest⟩ :=
    s.store3_spec (bcdHundreds s.v[x]) (bcdTens s.v[x]) (bcdUnits s.v[x])
  refine ⟨_, exec_ldB x s, rfl, ?_, ?_, ?_, hrest⟩
  · rw [hhundreds, toNat_bcdHundreds]
  · rw [htens, toNat_bcdTens]
  · rw [hunits, toNat_bcdUnits]

/-- Settles O54: the store loop gives the bytes, and the write to I masks the advanced index. -/
theorem ldMemVStoresV0ToVx : Obligations.LdMemVStoresV0ToVx := by
  intro x s
  obtain ⟨-, hstored, hrest⟩ := s.storeRegs_spec x
  exact ⟨_, exec_ldMemV x s, rfl, toNat_indexed_and_mask s (x.val + 1), hstored, hrest⟩

/-- Settles O55: the load loop gives each register up to x its byte and keeps the others, and the write to I masks the
advanced index. -/
theorem ldVMemLoadsV0ToVx : Obligations.LdVMemLoadsV0ToVx := by
  intro x s
  obtain ⟨-, hloaded⟩ := s.loadRegs_spec x
  refine ⟨_, exec_ldVMem x s, rfl, toNat_indexed_and_mask s (x.val + 1), fun r hr => ?_, fun r hr => ?_⟩
  · rw [hloaded, if_pos hr]
  · rw [hloaded, if_neg (Fin.not_le.mpr hr)]

end Sys2Proof.Machine
end

section
/-! The statements of conditions and timers (spec/60_exceptions.md). -/

namespace Sys2Proof.Machine

/-! ## What Execute does to the timers and the tone -/

/-- `t` has the timers and the tone of `s`. -/
def KeepsTimers (s t : State) : Prop := t.dt = s.dt ∧ t.st = s.st ∧ t.out.tone = s.out.tone

theorem keepsTimers_skipIf (s : State) (c : Bool) : KeepsTimers s (s.skipIf c) := by
  rw [State.skipIf_eq]
  exact ⟨rfl, rfl, rfl⟩

theorem keepsTimers_raiseCondition (s : State) (c : ConditionCode) (mask : Option Word) :
    KeepsTimers s (s.raiseCondition c mask) := ⟨rfl, rfl, rfl⟩

theorem keepsTimers_popOr (s : State) (k : Word → State → State) (hk : ∀ a t, KeepsTimers t (k a t)) :
    KeepsTimers s (s.popOr k) := by
  obtain ⟨a, rest, -, hpop⟩ | ⟨-, hpop⟩ := s.popOr_cases k <;> rw [hpop]
  · exact hk a { s with stack := rest }
  · exact keepsTimers_raiseCondition s _ _

theorem keepsTimers_pushOr (s : State) (a : Word) (k : State → State) (hk : ∀ t, KeepsTimers t (k t)) :
    KeepsTimers s (s.pushOr a k) := by
  obtain ⟨-, hpush⟩ | ⟨-, hpush⟩ := s.pushOr_cases a k <;> rw [hpush]
  · exact hk { s with stack := a :: s.stack }
  · exact keepsTimers_raiseCondition s _ _

/-- LD Vx, K writes the register or pc, whether or not a key is down. -/
theorem keepsTimers_ldVK {x : Reg} {s t : State} (h : exec (.ldVK x) s = .next t) : KeepsTimers s t := by
  change Host.Outcome.next _ = _ at h
  cases h
  split <;> exact ⟨rfl, rfl, rfl⟩

/-- Everything an instruction can do to the timers and the tone: LD DT writes DT, LD ST writes ST, and the others leave
all three alone (R174, R175). -/
theorem exec_timers_cases (i : Instr) (s t : State) (h : exec i s = .next t) :
    KeepsTimers s t ∨ (∃ x, i = .ldDtV x ∧ t = { s with dt := s.v[x] }) ∨
      (∃ x, i = .ldStV x ∧ t = { s with st := s.v[x] }) := by
  cases i with
  | ldDtV x => cases h; exact .inr (.inl ⟨x, rfl, rfl⟩)
  | ldStV x => cases h; exact .inr (.inr ⟨x, rfl, rfl⟩)
  | ret => cases h; exact .inl (keepsTimers_popOr s _ fun _ _ => ⟨rfl, rfl, rfl⟩)
  | call nnn => cases h; exact .inl (keepsTimers_pushOr s _ _ fun _ => ⟨rfl, rfl, rfl⟩)
  | seByte | sneByte | seReg | sneReg | skp | sknp => cases h; exact .inl (keepsTimers_skipIf s _)
  | ldVK x => exact .inl (keepsTimers_ldVK h)
  | ldMemV x => rw [exec_ldMemV] at h; cases h; exact .inl ⟨rfl, rfl, rfl⟩
  | ldVMem x => rw [exec_ldVMem] at h; cases h; exact .inl ⟨rfl, rfl, rfl⟩
  | _ => cases h; exact .inl ⟨rfl, rfl, rfl⟩

/-- Everything Execute of a word can do to the timers and the tone. -/
theorem executeWord_timers_cases (w : Word) (s u : State) (h : executeWord w s = .next u) :
    KeepsTimers s u ∨ (∃ x, decode w = .instr (.ldDtV x) ∧ u = { s with dt := s.v[x] }) ∨
      (∃ x, decode w = .instr (.ldStV x) ∧ u = { s with st := s.v[x] }) := by
  obtain ⟨i, hdec, hexec⟩ | ⟨m, -, rfl⟩ := executeWord_cases w s u h
  · rw [hdec]
    simpa only [Decoded.instr.injEq] using exec_timers_cases i s u hexec
  · exact .inl (keepsTimers_raiseCondition s _ _)

/-- Execute emits no tone (R216). -/
theorem executeWord_tone {w : Word} {s u : State} (h : executeWord w s = .next u) : u.out.tone = s.out.tone := by
  obtain ⟨-, -, htone⟩ | ⟨x, -, rfl⟩ | ⟨x, -, rfl⟩ := executeWord_timers_cases w s u h
  · exact htone
  · rfl
  · rfl

/-- Only LD DT writes DT in Execute (R174). -/
theorem executeWord_dt {w : Word} {s u : State} (h : executeWord w s = .next u)
    (hw : ∀ x, decode w ≠ .instr (.ldDtV x)) : u.dt = s.dt := by
  obtain ⟨hdt, -, -⟩ | ⟨x, hdec, -⟩ | ⟨x, -, rfl⟩ := executeWord_timers_cases w s u h
  · exact hdt
  · exact absurd hdec (hw x)
  · rfl

/-- Only LD ST writes ST in Execute (R175). -/
theorem executeWord_st {w : Word} {s u : State} (h : executeWord w s = .next u)
    (hw : ∀ x, decode w ≠ .instr (.ldStV x)) : u.st = s.st := by
  obtain ⟨-, hst, -⟩ | ⟨x, -, rfl⟩ | ⟨x, hdec, -⟩ := executeWord_timers_cases w s u h
  · exact hst
  · rfl
  · exact absurd hdec (hw x)

/-! ## What follows Execute -/

theorem State.finishCycle_running {s : State} (h : s.halted = none) : s.finishCycle = s.timerTick := by
  rw [State.finishCycle_eq, if_pos h]

theorem State.finishCycle_halted {s : State} (h : s.halted ≠ none) : s.finishCycle = s := by
  rw [State.finishCycle_eq, if_neg h]

/-- A timer does not rise after Execute: the Timer-Tick counts it down, and a halting cycle leaves it (R215). -/
theorem State.finishCycle_timers_le (s : State) :
    s.finishCycle.dt.toNat ≤ s.dt.toNat ∧ s.finishCycle.st.toNat ≤ s.st.toNat := by
  by_cases h : s.halted = none
  · rw [State.finishCycle_running h, State.timerTick_dt, State.timerTick_st, toNat_timerDown, toNat_timerDown]
    exact ⟨Nat.sub_le _ _, Nat.sub_le _ _⟩
  · rw [State.finishCycle_halted h]
    exact ⟨Nat.le_refl _, Nat.le_refl _⟩

/-- A timer falls to 0 in a Timer-Tick exactly from 1. -/
theorem timerDown_falls_to_zero_iff (b : Byte) : (0 < b.toNat ∧ (timerDown b).toNat = 0) ↔ b = 1 := by
  rw [toNat_timerDown, ← BitVec.toNat_inj, show (1 : Byte).toNat = 1 from rfl]
  omega

/-- After an Execute without a tone, the cycle's tone is that of the Timer-Tick that takes ST to 0 (R216). -/
theorem State.finishCycle_tone_iff {s : State} (hquiet : s.out.tone = false) :
    s.finishCycle.out.tone = true ↔ s.halted = none ∧ 0 < s.st.toNat ∧ s.finishCycle.st.toNat = 0 := by
  by_cases h : s.halted = none
  · rw [State.finishCycle_running h, State.timerTick_st, timerDown_falls_to_zero_iff]
    simp [h]
  · rw [State.finishCycle_halted h]
    simp [h, hquiet]

/-! ## The statements -/

/-- Settles O7: the step is Execute and what follows it; Execute emits no tone and writes a timer only in LD DT or LD ST,
so countdown and tone are the Timer-Tick's. -/
theorem timersCountDownOncePerCycle : Obligations.TimersCountDownOncePerCycle := by
  refine ⟨rfl, fun s u hrun hexec => ?_⟩
  change executeWord s.bytesAtPc s.fetch = .next u at hexec
  have hstep : step s = .next u.finishCycle := step_running s u hrun (by rw [s.fetchWord_eq, hexec])
  have hquiet : u.out.tone = false := executeWord_tone hexec
  obtain ⟨hdtLe, hstLe⟩ := u.finishCycle_timers_le
  refine ⟨u.finishCycle, hstep, fun hgoes => ?_, State.finishCycle_tone_iff hquiet, fun hw => ?_, fun hw => ?_⟩
  · rw [State.finishCycle_running hgoes]
    exact ⟨rfl, rfl, toNat_timerDown u.dt, toNat_timerDown u.st⟩
  · rwa [executeWord_dt hexec hw, State.fetch_dt] at hdtLe
  · rwa [executeWord_st hexec hw, State.fetch_st] at hstLe

end Sys2Proof.Machine
end

section
/-! What an instruction can do, said once by kind of effect, and what follows for a step. -/

namespace Sys2Proof.Machine

/-! ## Fields of the state that a loop or a cycle leaves alone -/

/-- The store loop as a loop over memory alone (R194). -/
theorem State.storeRegs_mem (s : State) (x : Reg) :
    (s.storeRegs x).mem = (regsUpTo x).foldl (fun m k => m.store (s.indexed k.val) (s.getV k)) s.mem :=
  (List.foldl_hom State.mem fun _ _ => rfl).symm

/-- The load loop as a loop over the registers alone (R195). -/
theorem State.loadRegs_v (s : State) (x : Reg) :
    (s.loadRegs x).v = (regsUpTo x).foldl (fun v k => v.set k (s.memRead (s.indexed k.val))) s.v :=
  (List.foldl_hom State.v fun _ _ => rfl).symm

theorem State.storeRegs_mem_wf (s : State) (x : Reg) (h : s.mem.wf) : (s.storeRegs x).mem.wf := by
  rw [State.storeRegs_mem]
  exact List.foldlRecOn (motive := Memory.wf) _ _ h fun m hm k _ => m.store_wf _ _ hm

theorem State.store3_wf (s : State) (h t u : Byte) (hm : s.mem.wf) : (s.store3 h t u).wf :=
  Memory.store_wf _ _ _ (Memory.store_wf _ _ _ (Memory.store_wf _ _ _ hm))

/-! ## The kinds of effect -/

/-- The five operations that write I (R25). -/
def WritesIndex (i : Instr) : Prop :=
  (∃ nnn, i = .ldI nnn) ∨ (∃ x, i = .addI x) ∨ (∃ x, i = .ldF x) ∨ (∃ x, i = .ldMemV x) ∨ (∃ x, i = .ldVMem x)

/-- `a` can be the index after `i`: the old one, or a 12-bit value that one of the five operations has written. -/
def IndexAfter (i : Instr) (s : State) (a : Word) : Prop := a = s.i ∨ (WritesIndex i ∧ a.toNat < 4096)

/-- The two operations that write the framebuffer (R35). -/
def WritesDisplay (i : Instr) : Prop := i = .cls ∨ ∃ x y n, i = .drw x y n

/-- The states that the instruction `i` can lead to from `s`, by kind of effect: each constructor names the fields that
change and what is known of their new values. -/
inductive Effect (i : Instr) (s : State) : State → Prop where
  /-- Jumps and skips, and a blocked LD Vx, K: pc alone. -/
  | jump (p : Word) (hp : p = s.pc ∨ p.toNat < 4096) : Effect i s { s with pc := p }
  /-- Writes of registers and of I. -/
  | compute (v : Vector Byte 16) (a : Word) (n : Nat) (hv : ∀ r, r ∉ destRegs i → v[r] = s.v[r])
      (ha : IndexAfter i s a) : Effect i s { s with v := v, i := a, draws := n }
  /-- Stores into memory. -/
  | store (m : Memory) (a : Word) (hwf : s.mem.wf → m.wf)
      (hm : ∀ c, (∀ k, k < storedBytes i → c ≠ cellOf (s.indexed k)) → m.read c = s.mem.read c)
      (ha : IndexAfter i s a) : Effect i s { s with mem := m, i := a }
  /-- CLS and DRW. -/
  | display (v : Vector Byte 16) (fb : Framebuffer) (d : Bool) (hi : WritesDisplay i)
      (hv : ∀ r, r ∉ destRegs i → v[r] = s.v[r]) (hfb : fb ≠ s.fb → d = true) (hd : s.dirty = true → d = true) :
      Effect i s { s with v := v, fb := fb, dirty := d }
  /-- LD DT and LD ST. -/
  | timers (dt st : Byte) : Effect i s { s with dt := dt, st := st }
  /-- RET with an entry on the stack. -/
  | pop (a : Word) (rest : List Word) (hi : i = .ret) (hs : s.stack = a :: rest) :
      Effect i s { s with stack := rest, pc := a &&& Config.addrMask }
  /-- CALL with room on the stack. -/
  | push (nnn : Addr) (hi : i = .call nnn) (hs : s.stack.length < 16) :
      Effect i s { s with stack := s.pc :: s.stack, pc := zextAddr nnn }
  /-- RET on an empty and CALL on a full stack. -/
  | fatal (c : ConditionCode) (hi : i = .ret ∨ ∃ nnn, i = .call nnn) (hc : c.haltReason ≠ none) :
      Effect i s (s.raiseCondition c none)

/-- An instruction that writes registers and neither I nor the draw counter. -/
theorem Effect.ofRegs {i : Instr} {s t : State} (h : OnlyRegs (destRegs i) s t) : Effect i s t := by
  obtain ⟨hframe, hv⟩ := h
  rw [hframe]
  exact .compute t.v s.i s.draws hv (.inl rfl)

theorem Effect.ofSkip (i : Instr) (s : State) (c : Bool) : Effect i s (s.skipIf c) := by
  rw [State.skipIf_eq]
  refine .jump _ ?_
  cases c with
  | false => exact .inl rfl
  | true => exact .inr (toNat_and_mask_lt _)

/-! ## The effect of the remaining instructions -/

/-- Everything CALL does (R102, R213). -/
theorem exec_call_cases (nnn : Addr) (s : State) :
    (s.stack.length < 16 ∧
        exec (.call nnn) s = .next { s with stack := s.pc :: s.stack, pc := zextAddr nnn }) ∨
      (16 ≤ s.stack.length ∧ exec (.call nnn) s = .next (s.raiseCondition .stackOverflow none)) := by
  refine (s.pushOr_cases s.pc fun t => t.setPc (zextAddr nnn)).imp ?_ ?_
  · rintro ⟨hroom, hpush⟩
    refine ⟨hroom, congrArg Host.Outcome.next (hpush.trans ?_)⟩
    rw [State.setPc, zextAddr_and_mask]
  · rintro ⟨hfull, hpush⟩
    exact ⟨hfull, congrArg Host.Outcome.next hpush⟩

/-- Everything RET does (R100, R212). -/
theorem exec_ret_cases (s : State) :
    (∃ a rest, s.stack = a :: rest ∧
        exec .ret s = .next { s with stack := rest, pc := a &&& Config.addrMask }) ∨
      (s.stack = [] ∧ exec .ret s = .next (s.raiseCondition .stackUnderflow none)) := by
  refine (s.popOr_cases fun a t => t.setPc a).imp ?_ ?_
  · rintro ⟨a, rest, hstack, hpop⟩
    exact ⟨a, rest, hstack, congrArg Host.Outcome.next hpop⟩
  · rintro ⟨hstack, hpop⟩
    exact ⟨hstack, congrArg Host.Outcome.next hpop⟩

/-- Everything LD Vx, K does (R173). -/
theorem exec_ldVK (x : Reg) (s : State) :
    exec (.ldVK x) s = .next
      (match s.lowestPressed with
       | none => s.setPc (s.pc - 2)
       | some k => s.setV x (keyByte k)) := rfl

theorem exec_addI (x : Reg) (s : State) :
    exec (.addI x) s = .next
      ((s.setI (s.i + zextByte (s.getV x))).setV vf (indexOverflowFlag s.i (s.getV x))) := rfl

theorem Effect.ofStore3 (x : Reg) (s : State) (h t u : Byte) :
    Effect (.ldB x) s { s with mem := s.store3 h t u } := by
  obtain ⟨-, -, -, hrest⟩ := s.store3_spec h t u
  exact .store _ s.i (s.store3_wf h t u)
    (fun c hc => hrest c (hc 0 (by decide : 0 < 3)) (hc 1 (by decide : 1 < 3)) (hc 2 (by decide : 2 < 3))) (.inl rfl)

theorem Effect.ofStoreRegs (x : Reg) (s : State) (a : Word) (ha : a.toNat < 4096) :
    Effect (.ldMemV x) s { s with mem := (s.storeRegs x).mem, i := a } := by
  obtain ⟨-, -, hrest⟩ := s.storeRegs_spec x
  exact .store _ a (s.storeRegs_mem_wf x) (fun c hc => hrest c fun r hr => hc r.val (Nat.lt_succ_of_le hr))
    (.inr ⟨by simp [WritesIndex], ha⟩)

theorem Effect.ofLoadRegs (x : Reg) (s : State) (a : Word) (ha : a.toNat < 4096) :
    Effect (.ldVMem x) s { s with v := (s.loadRegs x).v, i := a } := by
  obtain ⟨-, hloaded⟩ := s.loadRegs_spec x
  refine .compute _ a s.draws (fun r hr => ?_) (.inr ⟨by simp [WritesIndex], ha⟩)
  rw [hloaded, if_neg (mt (mem_regsUpTo x r).mpr hr)]

/-- CLS sets dirty whatever it changes (R150). -/
theorem Effect.ofCls (s : State) : Effect .cls s { s with fb := Framebuffer.clear, dirty := true } :=
  .display s.v _ true (.inl rfl) (fun _ _ => rfl) (fun _ => rfl) (fun _ => rfl)

/-- A draw that changed nothing has left the framebuffer as it was. -/
theorem Draw.Drew.fb_eq {fb : Framebuffer} {lit : Fin 32 → Fin 64 → Bool} {d : Draw} (h : Draw.Drew fb lit d)
    (hd : d.changed ≠ true) : d.fb = fb := by
  refine Framebuffer.ext_cell _ _ fun row col => ?_
  by_contra hne
  exact hd (h.changed_iff_cell_ne.mpr ⟨row, col, hne⟩)

/-- DRW writes VF, and dirty gains whether a cell changed (R155). -/
theorem Effect.ofDrw (x y : Reg) (n : Nat) (s : State) (b : Byte) :
    Effect (.drw x y n) s
      { s.setV vf b with
        fb := (s.drawSprite x y n).fb
        dirty := s.dirty || (s.drawSprite x y n).changed } := by
  have hdrew : Draw.Drew s.fb (spriteCovers s x y n) (s.drawSprite x y n) := s.drew_drawSprite x y n
  obtain ⟨-, hv⟩ := onlyRegs_setV s vf b
  refine .display _ _ _ (.inr ⟨x, y, n, rfl⟩) hv (fun hfb => ?_) (fun hd => ?_)
  · have hchanged : (s.drawSprite x y n).changed = true := by
      by_contra hd
      exact hfb (hdrew.fb_eq hd)
    rw [hchanged, Bool.or_true]
  · rw [hd, Bool.true_or]

theorem Effect.ofAddI (x : Reg) (s : State) (a : Word) (b : Byte) :
    Effect (.addI x) s ((s.setI a).setV vf b) := by
  obtain ⟨-, hv⟩ := onlyRegs_setV s vf b
  exact .compute _ _ s.draws hv (.inr ⟨by simp [WritesIndex], toNat_and_mask_lt a⟩)

/-- A write to I by one of the five operations (R25). -/
theorem Effect.ofSetI {i : Instr} (s : State) (a : Word) (hi : WritesIndex i) : Effect i s (s.setI a) :=
  .compute s.v _ s.draws (fun _ _ => rfl) (.inr ⟨hi, toNat_and_mask_lt a⟩)

theorem Effect.ofSetPc (i : Instr) (s : State) (a : Word) : Effect i s (s.setPc a) :=
  .jump _ (.inr (toNat_and_mask_lt a))

theorem Effect.ofRnd (x : Reg) (kk : Byte) (s : State) (b : Byte) :
    Effect (.rnd x kk) s (s.countDraw.setV x b) := by
  obtain ⟨-, hv⟩ := onlyRegs_setV s x b
  exact .compute _ s.i _ hv (.inl rfl)

/-- Everything an instruction can do. -/
theorem exec_effect {i : Instr} {s t : State} (h : exec i s = .next t) : Effect i s t := by
  cases i with
  | cls => cases h; exact .ofCls s
  | ret =>
    obtain ⟨a, rest, hstack, hexec⟩ | ⟨-, hexec⟩ := exec_ret_cases s <;> cases hexec.symm.trans h
    · exact .pop a rest rfl hstack
    · exact .fatal _ (.inl rfl) (by decide)
  | call nnn =>
    obtain ⟨hroom, hexec⟩ | ⟨-, hexec⟩ := exec_call_cases nnn s <;> cases hexec.symm.trans h
    · exact .push nnn rfl hroom
    · exact .fatal _ (.inr ⟨nnn, rfl⟩) (by decide)
  | jp | jpV0 => cases h; exact .ofSetPc _ s _
  | seByte | sneByte | seReg | sneReg | skp | sknp => cases h; exact .ofSkip _ s _
  | ldByte | addByte | ldReg | orReg | andReg | xorReg | ldVDt => cases h; exact .ofRegs (onlyRegs_setV s _ _)
  | addReg | subReg | shr | subn | shl => cases h; exact .ofRegs (onlyRegs_setResultThenFlag s _ _ _)
  | rnd x kk => cases h; exact .ofRnd x kk s _
  | drw x y n => rw [exec_drw] at h; cases h; exact .ofDrw x y n s _
  | ldVK x =>
    cases (exec_ldVK x s).symm.trans h
    cases s.lowestPressed with
    | none => exact .ofSetPc _ s _
    | some k => exact .ofRegs (onlyRegs_setV s x _)
  | ldDtV x => cases h; exact .timers _ s.st
  | ldStV x => cases h; exact .timers s.dt _
  | ldI | ldF => cases h; exact .ofSetI s _ (by simp [WritesIndex])
  | addI x => rw [exec_addI] at h; cases h; exact .ofAddI x s _ _
  | ldB x => rw [exec_ldB] at h; cases h; exact .ofStore3 x s _ _ _
  | ldMemV x => rw [exec_ldMemV] at h; cases h; exact .ofStoreRegs x s _ (toNat_and_mask_lt _)
  | ldVMem x => rw [exec_ldVMem] at h; cases h; exact .ofLoadRegs x s _ (toNat_and_mask_lt _)

/-! ## What each field can become -/

theorem Effect.v_eq {i : Instr} {s t : State} (h : Effect i s t) {r : Reg} (hr : r ∉ destRegs i) :
    t.v[r] = s.v[r] := by
  cases h with
  | compute _ _ _ hv | display _ _ _ _ hv => exact hv r hr
  | jump | store | timers | pop | push | fatal => rfl

theorem Effect.read_eq {i : Instr} {s t : State} (h : Effect i s t) {c : Nat}
    (hc : ∀ k, k < storedBytes i → c ≠ cellOf (s.indexed k)) : t.mem.read c = s.mem.read c := by
  cases h with
  | store _ _ _ hm => exact hm c hc
  | jump | compute | display | timers | pop | push | fatal => rfl

/-- The framebuffer and dirty are as they were, or a display operation has kept dirty up to date (R36). -/
theorem Effect.display_cases {i : Instr} {s t : State} (h : Effect i s t) :
    (t.fb = s.fb ∧ t.dirty = s.dirty) ∨
      (WritesDisplay i ∧ (t.fb ≠ s.fb → t.dirty = true) ∧ (s.dirty = true → t.dirty = true)) := by
  cases h with
  | display _ _ _ hi _ hfb hd => exact .inr ⟨hi, hfb, hd⟩
  | jump | compute | store | timers | pop | push | fatal => exact .inl ⟨rfl, rfl⟩

theorem Effect.key_eq {i : Instr} {s t : State} (h : Effect i s t) : t.key = s.key := by
  cases h <;> rfl

theorem Effect.indexAfter {i : Instr} {s t : State} (h : Effect i s t) : IndexAfter i s t.i := by
  cases h with
  | compute _ _ _ _ ha | store _ _ _ _ ha => exact ha
  | jump | display | timers | pop | push | fatal => exact .inl rfl

/-- Only RET and CALL touch the stack or the run state (R29, R40). -/
theorem Effect.stack_halted_eq {i : Instr} {s t : State} (h : Effect i s t) :
    (t.stack = s.stack ∧ t.halted = s.halted) ∨ i = .ret ∨ ∃ nnn, i = .call nnn := by
  cases h with
  | pop _ _ hi => exact .inr (.inl hi)
  | push nnn hi => exact .inr (.inr ⟨nnn, hi⟩)
  | fatal _ hi => exact .inr hi
  | jump | compute | store | display | timers => exact .inl ⟨rfl, rfl⟩

/-- An instruction reports nothing and goes on, or takes a fatal condition (R210). -/
theorem Effect.report_cases {i : Instr} {s t : State} (h : Effect i s t) :
    (t.out = s.out ∧ t.halted = s.halted) ∨
      ∃ c : ConditionCode, c.haltReason ≠ none ∧ t = s.raiseCondition c none := by
  cases h with
  | fatal c _ hc => exact .inr ⟨c, hc, rfl⟩
  | jump | compute | store | display | timers | pop | push => exact .inl ⟨rfl, rfl⟩

end Sys2Proof.Machine
end

section
/-! The statements of invariants: every step and every host move keeps states well formed. -/

namespace Sys2Proof.Machine

/-! ## The invariant under the phases of a cycle -/

/-- Well-formedness speaks of pc, I, the stack and memory alone, so a state with these fields is well formed too. -/
theorem State.wf_congr {s t : State} (h : s.wf) (hpc : t.pc = s.pc) (hi : t.i = s.i) (hstack : t.stack = s.stack)
    (hmem : t.mem = s.mem) : t.wf := by
  rw [State.wf, hpc, hi, hstack, hmem]
  exact h

theorem State.wf_setPc {s : State} {p : Word} (h : s.wf) (hp : p.toNat < 4096) : State.wf { s with pc := p } := by
  obtain ⟨-, hrest⟩ := h
  exact ⟨hp, hrest⟩

theorem State.wf_fetch {s : State} (h : s.wf) : s.fetch.wf :=
  State.wf_congr (State.wf_setPc h (toNat_and_mask_lt (s.pc + 2))) rfl rfl rfl rfl

theorem State.wf_raiseCondition {s : State} (h : s.wf) (c : ConditionCode) (mask : Option Word) :
    (s.raiseCondition c mask).wf := State.wf_congr h rfl rfl rfl rfl

theorem State.wf_finishCycle {s : State} (h : s.wf) : s.finishCycle.wf := by
  rw [State.finishCycle_frame]
  exact State.wf_congr h rfl rfl rfl rfl

/-- An index that one of the five operations can leave is a 12-bit value (R25). -/
theorem IndexAfter.lt {i : Instr} {s : State} {a : Word} (h : IndexAfter i s a) (hi : s.i.toNat < 4096) :
    a.toNat < 4096 := by
  obtain rfl | ⟨-, ha⟩ := h
  · exact hi
  · exact ha

/-- Every instruction keeps states well formed: what it writes to pc and I is masked, and it pushes a 12-bit pc only
where the stack has room. -/
theorem Effect.wf {i : Instr} {s t : State} (h : Effect i s t) (hs : s.wf) : t.wf := by
  obtain ⟨hpc, hi, hdepth, hentries, hmem⟩ := hs
  cases h with
  | jump p hp =>
    obtain rfl | hp := hp
    · exact ⟨hpc, hi, hdepth, hentries, hmem⟩
    · exact ⟨hp, hi, hdepth, hentries, hmem⟩
  | compute v a n hv ha => exact ⟨hpc, ha.lt hi, hdepth, hentries, hmem⟩
  | store m a hwf hm ha => exact ⟨hpc, ha.lt hi, hdepth, hentries, hwf hmem⟩
  | pop a rest _ hstack =>
    rw [hstack] at hdepth hentries
    exact ⟨toNat_and_mask_lt a, hi, Nat.le_of_succ_le hdepth, fun b hb => hentries b (List.mem_cons_of_mem a hb), hmem⟩
  | push nnn _ hroom =>
    have haddr : (zextAddr nnn).toNat < 4096 := by rw [toNat_zextAddr]; exact nnn.isLt
    exact ⟨haddr, hi, hroom, List.forall_mem_cons.mpr ⟨hpc, hentries⟩, hmem⟩
  | display | timers | fatal => exact ⟨hpc, hi, hdepth, hentries, hmem⟩

theorem executeWord_wf {w : Word} {s u : State} (h : executeWord w s = .next u) (hs : s.wf) : u.wf := by
  obtain ⟨i, -, hexec⟩ | ⟨m, -, rfl⟩ := executeWord_cases w s u h
  · exact (exec_effect hexec).wf hs
  · exact State.wf_raiseCondition hs _ _

theorem State.wf_load {s : State} {image : List Byte} (h : s.wf) (hlen : image.length ≤ 3584) :
    State.wf { s with mem := s.mem.writeFrom 0x200 image } := by
  obtain ⟨hpc, hi, hdepth, hentries, hmem⟩ := h
  refine ⟨hpc, hi, hdepth, hentries, Memory.writeFrom_wf _ _ _ hmem ?_⟩
  change 512 + image.length ≤ 4096
  omega

/-! ## The statements -/

/-- Settles O13: a halted tick writes no field of the invariant, and each phase of a cycle keeps it. -/
theorem stepKeepsStatesWellFormed : Obligations.StepKeepsStatesWellFormed := by
  intro s t hs hstep
  obtain ⟨-, rfl⟩ | ⟨-, u, hexec, rfl⟩ := step_cases s t hstep
  · exact State.wf_congr hs rfl rfl rfl rfl
  · exact State.wf_finishCycle (executeWord_wf hexec (State.wf_fetch hs))

/-- Settles O14: every bound holds of the reset values, and reset memory lists nothing. -/
theorem resetIsWellFormed : Obligations.ResetIsWellFormed := by
  have hpc : State.reset.pc.toNat < 4096 := by decide
  have hi : State.reset.i.toNat < 4096 := by decide
  have hdepth : State.reset.stack.length ≤ Config.stackDepth := Nat.zero_le _
  exact ⟨hpc, hi, hdepth, List.forall_mem_nil _, reset_mem_wf⟩

/-- Settles O58: a tick is a step, an accepted load stays inside the flat store, and the other moves write no field of the
invariant or reset it. -/
theorem hostMovesKeepStatesWellFormed : Obligations.HostMovesKeepStatesWellFormed := by
  intro m c d r hc hmove
  obtain ⟨-, rfl, -⟩ | ⟨image, -, -, hload⟩ | ⟨k, -, rfl, -⟩ | ⟨-, -, t, hstep, rfl, -⟩ | ⟨-, rfl, -⟩ | ⟨-, rfl, -⟩ :=
    hostMove_cases m c d r hmove
  · exact State.wf_congr resetIsWellFormed rfl rfl rfl rfl
  · obtain ⟨hlen, rfl, -⟩ | ⟨-, rfl, -⟩ := hload
    · exact State.wf_load hc hlen
    · exact hc
  · exact State.wf_congr hc rfl rfl rfl rfl
  · exact stepKeepsStatesWellFormed c.state t hc hstep
  · exact hc
  · exact State.wf_congr hc rfl rfl rfl rfl

/-- Settles O15, by induction on the moves: the first reset is well formed and every move keeps it so. -/
theorem reachableSessionsAreWellFormed : Obligations.ReachableSessionsAreWellFormed := by
  intro c hc
  induction hc with
  | start => exact resetIsWellFormed
  | move m c d r _ hmove ih => exact hostMovesKeepStatesWellFormed m c d r ih hmove

end Sys2Proof.Machine
end

section
/-! The statements of what a step may write (spec/10_state.md, spec/20_memory.md). -/

namespace Sys2Proof.Machine

/-! ## A change in a step comes from the instruction -/

/-- A part `f` of the state that only an instruction can change: no phase of a cycle but Execute writes it, and neither
do a halted tick and an unrecognized word. -/
structure ChangedByInstrOnly {α : Type} (f : State → α) : Prop where
  fetch : ∀ s, f s.fetch = f s
  finish : ∀ s, f s.finishCycle = f s
  halted : ∀ s, f s.haltedTick = f s
  skipped : ∀ s mask, f (s.raiseCondition .unrecognized mask) = f s

/-- A step changes such a part by the effect of the instruction at pc. -/
theorem ChangedByInstrOnly.step_change {α : Type} {f : State → α} (hf : ChangedByInstrOnly f) {s t : State}
    (h : step s = .next t) (hne : f t ≠ f s) :
    ∃ i u, decode s.bytesAtPc = .instr i ∧ Effect i s.fetch u ∧ f u = f t := by
  obtain ⟨-, rfl⟩ | ⟨-, u, hexec, rfl⟩ := step_cases s t h
  · exact absurd (hf.halted s) hne
  · rw [hf.finish] at hne ⊢
    obtain ⟨i, hdec, hexec⟩ | ⟨m, -, rfl⟩ := executeWord_cases _ _ u hexec
    · rw [s.fetchWord_eq] at hdec
      exact ⟨i, u, hdec, exec_effect hexec, rfl⟩
    · exact absurd ((hf.skipped s.fetch _).trans (hf.fetch s)) hne

/-- A part that depends on none of pc, the timers and the output record: the phases around Execute write only these. -/
theorem changedByInstrOnly_of_frame {α : Type} (f : State → α)
    (h : ∀ (s : State) (p : Word) (dt st : Byte) (out : Out),
      f { s with pc := p, dt := dt, st := st, out := out } = f s) : ChangedByInstrOnly f where
  fetch s := h s _ s.dt s.st _
  finish s := by rw [State.finishCycle_frame]; exact h s s.pc _ _ _
  halted s := h s s.pc s.dt s.st _
  skipped s _ := h s s.pc s.dt s.st _

/-! ## The statements -/

/-- Settles O8: an instruction keeps every register but its destinations. -/
theorem registersChangeOnlyByTheirWriters : Obligations.RegistersChangeOnlyByTheirWriters := by
  intro s t r hstep hne
  have honly : ChangedByInstrOnly fun s : State => s.v[r] := changedByInstrOnly_of_frame _ fun _ _ _ _ _ => rfl
  obtain ⟨i, u, hdec, heffect, hut⟩ := honly.step_change hstep hne
  refine ⟨i, hdec, ?_⟩
  by_contra hr
  exact hne (hut.symm.trans (heffect.v_eq hr))

/-- Settles O9: an instruction keeps every byte but those it stores, at the cells counted from I, which Fetch leaves
alone. -/
theorem memoryChangesOnlyByStores : Obligations.MemoryChangesOnlyByStores := by
  intro s t a hstep hne
  have honly : ChangedByInstrOnly fun s : State => s.mem.read a := changedByInstrOnly_of_frame _ fun _ _ _ _ _ => rfl
  obtain ⟨i, u, hdec, heffect, hut⟩ := honly.step_change hstep hne
  by_contra hno
  refine hne (hut.symm.trans (heffect.read_eq fun k hk hak => hno ⟨i, k, hdec, hk, hak⟩))

/-- Settles O10: framebuffer and dirty change together, by a display operation, which keeps dirty up to date. -/
theorem framebufferAndDirtyChangeOnlyByClsAndDrw : Obligations.FramebufferAndDirtyChangeOnlyByClsAndDrw := by
  intro s t hstep
  have honly : ChangedByInstrOnly fun s : State => (s.fb, s.dirty) :=
    changedByInstrOnly_of_frame _ fun _ _ _ _ _ => rfl
  by_cases hsame : (t.fb, t.dirty) = (s.fb, s.dirty)
  · obtain ⟨hfb, hdirty⟩ := Prod.mk.inj hsame
    rw [hfb, hdirty]
    exact ⟨fun h => absurd h (by simp), fun h => absurd rfl h, id⟩
  · obtain ⟨i, u, hdec, heffect, hut⟩ := honly.step_change hstep hsame
    obtain ⟨hfb, hdirty⟩ := Prod.mk.inj hut
    rw [← hfb, ← hdirty] at hsame ⊢
    obtain ⟨hfbSame, hdirtySame⟩ | ⟨hwrites, hset, hkept⟩ := heffect.display_cases
    · exact absurd (Prod.ext hfbSame hdirtySame) hsame
    · refine ⟨fun _ => ?_, hset, hkept⟩
      rw [hdec]
      simpa only [WritesDisplay, Decoded.instr.injEq] using hwrites

/-- Settles O11: no instruction writes the keys, the stack and the run state are RET's and CALL's, and I is written by the
five operations alone. -/
theorem stackIndexKeysAndHaltChangeOnlyByTheirOperations :
    Obligations.StackIndexKeysAndHaltChangeOnlyByTheirOperations := by
  intro s t hstep
  refine ⟨?_, fun hne => ?_, fun hne => ?_⟩
  · have honly : ChangedByInstrOnly State.key := changedByInstrOnly_of_frame _ fun _ _ _ _ _ => rfl
    by_contra hne
    obtain ⟨i, u, -, heffect, hut⟩ := honly.step_change hstep hne
    exact hne (hut.symm.trans heffect.key_eq)
  · have honly : ChangedByInstrOnly fun s : State => (s.stack, s.halted) :=
      { fetch := fun _ => rfl
        finish := fun s => by rw [State.finishCycle_frame]
        halted := fun _ => rfl
        skipped := fun _ _ => rfl }
    have hne' : (t.stack, t.halted) ≠ (s.stack, s.halted) := by rwa [ne_eq, Prod.mk.injEq, not_and_or]
    obtain ⟨i, u, hdec, heffect, hut⟩ := honly.step_change hstep hne'
    obtain ⟨hstack, hhalted⟩ | hi := heffect.stack_halted_eq
    · exact absurd (hut.symm.trans (Prod.ext hstack hhalted)) hne'
    · rw [hdec]
      simpa only [Decoded.instr.injEq] using hi
  · have honly : ChangedByInstrOnly State.i := changedByInstrOnly_of_frame _ fun _ _ _ _ _ => rfl
    obtain ⟨i, u, hdec, heffect, hut⟩ := honly.step_change hstep hne
    obtain hsame | ⟨hwrites, -⟩ := heffect.indexAfter
    · exact absurd (hut.symm.trans hsame) hne
    · rw [hdec]
      simpa only [WritesIndex, Decoded.instr.injEq] using hwrites

end Sys2Proof.Machine
end

section
/-! The statements of the cycle and its conditions (spec/30_encoding.md section 5, spec/60_exceptions.md). -/

namespace Sys2Proof.Machine

/-! ## What follows Execute, and Execute of a word -/

@[simp] theorem State.halted_finishCycle (s : State) : s.finishCycle.halted = s.halted := by
  rw [State.finishCycle_frame]

@[simp] theorem State.report_finishCycle (s : State) : s.finishCycle.out.report = s.out.report := by
  rw [State.finishCycle_eq]
  split <;> rfl

/-- The step of a running core whose word decodes: Execute of the instruction, and what follows it. -/
theorem step_of_decode {s t : State} {i : Instr} (hrun : s.halted = none) (hdec : decode s.bytesAtPc = .instr i)
    (hexec : exec i s.fetch = .next t) : step s = .next t.finishCycle :=
  step_running s t hrun ((executeWord_of_decode s i hdec).trans hexec)

/-- The step of a running core whose word is unrecognized (R211). -/
theorem step_of_unrecognized {s : State} {m : Word} (hrun : s.halted = none)
    (hdec : decode s.bytesAtPc = .unrecognized m) :
    step s = .next (s.fetch.raiseCondition .unrecognized (some m)).finishCycle := by
  refine step_running s _ hrun ?_
  simp [executeWord, s.fetchWord_eq, hdec]

/-- Execute of a word reports nothing and leaves the run state, or raises one condition (R210). -/
theorem executeWord_report_cases {w : Word} {s u : State} (h : executeWord w s = .next u) :
    (u.out = s.out ∧ u.halted = s.halted) ∨ ∃ c mask, u = s.raiseCondition c mask := by
  obtain ⟨i, -, hexec⟩ | ⟨m, -, rfl⟩ := executeWord_cases w s u h
  · obtain hquiet | ⟨c, -, hraise⟩ := (exec_effect hexec).report_cases
    · exact .inl hquiet
    · exact .inr ⟨c, none, hraise⟩
  · exact .inr ⟨_, _, rfl⟩

/-! ## The statements -/

/-- Settles O3: a cycle is Fetch, Execute of the decoded instruction, and what follows Execute. -/
theorem stepRunsTheDecodedInstruction : Obligations.StepRunsTheDecodedInstruction := by
  intro s i t hrun hdec _ hexec
  rw [← State.finishCycle_eq]
  exact step_of_decode hrun hdec hexec

/-- Settles O4: the cycle raises Unrecognized after Fetch, which does not halt, so the Timer-Tick follows. -/
theorem unrecognizedWordIsReportedAndSkipped : Obligations.UnrecognizedWordIsReportedAndSkipped := by
  intro s m hrun hdec
  have hgoes : (s.fetch.raiseCondition .unrecognized (some m)).halted = none := hrun
  rw [step_of_unrecognized hrun hdec, State.finishCycle_running hgoes, raiseCondition_fetch]
  rfl

/-- Settles O5: a halted tick empties the output record and does nothing else. -/
theorem haltedTickChangesNothing : Obligations.HaltedTickChangesNothing := by
  intro s r hhalted
  refine step_halted s ?_
  rw [hhalted]
  exact Option.some_ne_none r

/-- Settles O6: a halted tick reports nothing; Execute after Fetch reports nothing or raises one condition, whose own
reason is then the run state; and no Timer-Tick follows in a cycle that halts. -/
theorem everyStepCompletesOrReportsOneCondition : Obligations.EveryStepCompletesOrReportsOneCondition := by
  intro s
  by_cases hrun : s.halted = none
  · obtain ⟨u, hexec⟩ := executeWord_next s.fetchWord s.fetch
    refine ⟨u.finishCycle, step_running s u hrun hexec, ?_⟩
    rw [State.halted_finishCycle, State.report_finishCycle]
    obtain ⟨hout, hhalted⟩ | ⟨c, mask, rfl⟩ := executeWord_report_cases hexec
    · rw [hout, hhalted]
      exact ⟨fun _ => rfl, fun c hc => absurd hc (Option.some_ne_none c).symm⟩
    · refine ⟨fun hnone => absurd hnone (Option.some_ne_none _), fun c' hc' => ?_⟩
      cases hc'
      refine ⟨hrun, ?_, fun hhalts => ?_⟩
      · rw [State.raiseCondition_halted, State.fetch_halted, hrun, Option.or_none]
      · rw [State.finishCycle_halted hhalts]
        rfl
  · exact ⟨s.haltedTick, step_halted s hrun, fun _ => rfl, fun c hc => absurd hc (Option.some_ne_none c).symm⟩

end Sys2Proof.Machine
end

section
/-! Output, dirty and the sound timer are never read: two runs that differ in these alone stay so. -/

namespace Sys2Proof.Machine

/-- `t` differs from `s` in dirty, ST and the output record at most, and has the same report. -/
def AgreesButUnread (s t : State) : Prop :=
  t = { s with dirty := t.dirty, st := t.st, out := t.out } ∧ t.out.report = s.out.report

/-- The two outcomes are next states that agree but in the unread fields. -/
def OutcomesAgree (p q : Host.Outcome State Fault Refusal) : Prop :=
  ∃ s t, p = .next s ∧ q = .next t ∧ AgreesButUnread s t

theorem agreesButUnread_raiseCondition {s t : State} (h : AgreesButUnread s t) (c : ConditionCode)
    (mask : Option Word) : AgreesButUnread (s.raiseCondition c mask) (t.raiseCondition c mask) := by
  obtain ⟨hframe, -⟩ := h
  rw [hframe]
  exact ⟨rfl, rfl⟩

/-- What follows Execute reads the run state, which the two have in common. -/
theorem agreesButUnread_finishCycle {s t : State} (h : AgreesButUnread s t) :
    AgreesButUnread s.finishCycle t.finishCycle := by
  obtain ⟨hframe, hreport⟩ := h
  have hhalted : t.halted = s.halted := by rw [hframe]
  refine ⟨?_, by simpa only [State.report_finishCycle] using hreport⟩
  rw [State.finishCycle_eq, State.finishCycle_eq, hhalted]
  split
  · rw [hframe]
    rfl
  · rw [hframe]

theorem agreesButUnread_popOr {s t : State} (h : AgreesButUnread s t) (k : Word → State → State)
    (hk : ∀ a s t, AgreesButUnread s t → AgreesButUnread (k a s) (k a t)) :
    AgreesButUnread (s.popOr k) (t.popOr k) := by
  obtain ⟨hframe, hreport⟩ := h
  have hstack : t.stack = s.stack := by rw [hframe]
  unfold State.popOr
  rw [hstack]
  cases s.stack with
  | nil => exact agreesButUnread_raiseCondition ⟨hframe, hreport⟩ _ _
  | cons a rest =>
    refine hk a _ _ ?_
    rw [hframe]
    exact ⟨rfl, hreport⟩

theorem agreesButUnread_pushOr {s t : State} (h : AgreesButUnread s t) (a : Word) (k : State → State)
    (hk : ∀ s t, AgreesButUnread s t → AgreesButUnread (k s) (k t)) :
    AgreesButUnread (s.pushOr a k) (t.pushOr a k) := by
  obtain ⟨hframe, hreport⟩ := h
  have hstack : t.stack = s.stack := by rw [hframe]
  unfold State.pushOr
  rw [hstack]
  split
  · refine hk _ _ ?_
    rw [hframe]
    exact ⟨rfl, hreport⟩
  · exact agreesButUnread_raiseCondition ⟨hframe, hreport⟩ _ _

theorem agreesButUnread_setPc {s t : State} (h : AgreesButUnread s t) (a : Word) :
    AgreesButUnread (s.setPc a) (t.setPc a) := by
  obtain ⟨hframe, hreport⟩ := h
  rw [hframe]
  exact ⟨rfl, hreport⟩

/-- No instruction reads dirty, ST or the output record. -/
theorem exec_agrees (i : Instr) {s t : State} (h : AgreesButUnread s t) : OutcomesAgree (exec i s) (exec i t) := by
  have ⟨hframe, hreport⟩ := h
  cases i with
  | ret => exact ⟨_, _, rfl, rfl, agreesButUnread_popOr h _ fun a _ _ h => agreesButUnread_setPc h a⟩
  | call nnn =>
    have hpc : t.pc = s.pc := by rw [hframe]
    refine ⟨_, _, rfl, rfl, ?_⟩
    rw [hpc]
    exact agreesButUnread_pushOr h _ _ fun _ _ h => agreesButUnread_setPc h (zextAddr nnn)
  | seByte | sneByte | seReg | sneReg | skp | sknp =>
    rw [exec_eq_skipIf rfl, exec_eq_skipIf rfl, State.skipIf_eq, State.skipIf_eq, hframe]
    exact ⟨_, _, rfl, rfl, rfl, hreport⟩
  | ldVK x =>
    have hkeys : t.lowestPressed = s.lowestPressed := by rw [hframe]; rfl
    rw [exec_ldVK, exec_ldVK, hkeys, hframe]
    cases s.lowestPressed <;> exact ⟨_, _, rfl, rfl, rfl, hreport⟩
  | ldMemV x =>
    rw [exec_ldMemV, exec_ldMemV, State.storeRegs_mem, State.storeRegs_mem, hframe]
    exact ⟨_, _, rfl, rfl, rfl, hreport⟩
  | ldVMem x =>
    rw [exec_ldVMem, exec_ldVMem, State.loadRegs_v, State.loadRegs_v, hframe]
    exact ⟨_, _, rfl, rfl, rfl, hreport⟩
  | _ =>
    rw [hframe]
    exact ⟨_, _, rfl, rfl, rfl, hreport⟩

theorem executeWord_agrees (w : Word) {s t : State} (h : AgreesButUnread s t) :
    OutcomesAgree (executeWord w s) (executeWord w t) := by
  unfold executeWord
  cases decode w with
  | instr i => exact exec_agrees i h
  | unrecognized m => exact ⟨_, _, rfl, rfl, agreesButUnread_raiseCondition h _ _⟩

/-- Fetch reads none of the three fields, and it empties the output record, so the last report plays no part either. -/
theorem agreesButUnread_fetch (s : State) (d : Bool) (o : Out) (b : Byte) :
    AgreesButUnread s.fetch (State.fetch { s with dirty := d, out := o, st := b }) := ⟨rfl, rfl⟩

/-- Settles O12: the two run states are equal, so both ticks are halted ones or both are cycles, and every phase of a
cycle keeps the agreement. -/
theorem outputDirtyAndSoundTimerAreNeverRead : Obligations.OutputDirtyAndSoundTimerAreNeverRead := by
  intro s t d o b hstep
  obtain ⟨hhalted, rfl⟩ | ⟨hrun, u, hexec, rfl⟩ := step_cases s t hstep
  · exact ⟨d, Out.none, b, step_halted { s with dirty := d, out := o, st := b } hhalted, rfl⟩
  · obtain ⟨u', v, hu', hv, hagrees⟩ := executeWord_agrees s.fetchWord (agreesButUnread_fetch s d o b)
    cases hexec.symm.trans hu'
    obtain ⟨hframe, hreport⟩ := agreesButUnread_finishCycle hagrees
    refine ⟨v.finishCycle.dirty, v.finishCycle.out, v.finishCycle.st, ?_, hreport⟩
    rw [← hframe]
    exact step_running { s with dirty := d, out := o, st := b } v hrun hv

end Sys2Proof.Machine
end

section
/-! The statements of reset, the host's moves and the end of a run (spec/60_exceptions.md section 5, spec/70_reset_and_hazards.md). -/

namespace Sys2Proof.Machine

/-! ## Reset memory -/

/-- Above the font, reset memory reads as 0 (R43). -/
theorem Memory.unlisted_of_ge (a : Nat) (h : 80 ≤ a) : Memory.unlisted a = 0 :=
  List.getD_eq_default _ _ h

/-! ## Idle states -/

theorem State.idle_iff (s : State) :
    s.idle = true ↔ ∃ nnn, decode s.bytesAtPc = .instr (.jp nnn) ∧ s.halted = none ∧ zextAddr nnn = s.pc := by
  rw [State.idle, s.fetchWord_eq]
  constructor
  · intro h
    split at h
    · rename_i nnn hdec
      simp only [Bool.and_eq_true, Option.isNone_iff_eq_none, beq_iff_eq] at h
      exact ⟨nnn, hdec, h⟩
    · cases h
  · rintro ⟨nnn, hdec, hrun, hself⟩
    simp [hdec, hrun, hself]

/-- Whether a state is idle depends on pc, memory and the run state alone. -/
theorem State.idle_congr (s : State) (dt st : Byte) (out : Out) :
    State.idle { s with dt := dt, st := st, out := out } = s.idle := rfl

/-! ## The statements -/

/-- Settles O16: of the moves but Reset only a tick could write the run state, and a halted tick does not. -/
theorem onlyResetLeavesTheHaltedState : Obligations.OnlyResetLeavesTheHaltedState := by
  intro m c d r hmove hhalted hm
  obtain ⟨rfl, -, -⟩ | ⟨image, -, -, hload⟩ | ⟨k, -, rfl, -⟩ | ⟨-, -, t, hstep, rfl, -⟩ | ⟨-, rfl, -⟩ | ⟨-, rfl, -⟩ :=
    hostMove_cases m c d r hmove
  · exact absurd rfl hm
  · obtain ⟨-, rfl, -⟩ | ⟨-, rfl, -⟩ := hload <;> rfl
  · rfl
  · cases (step_halted c.state hhalted).symm.trans hstep
    rfl
  · rfl
  · rfl

/-- Settles O17: every field is the literal of `State.reset`, and reset memory lists nothing, so it reads as the font table
and 0 above it. -/
theorem resetLeavesTheSpecifiedValues : Obligations.ResetLeavesTheSpecifiedValues := by
  refine ⟨?_, rfl, rfl, rfl, rfl, rfl, ?_, ?_, rfl, rfl, Memory.unlisted_of_ge, by decide⟩
  · intro r
    exact Vector.getElem_replicate r.isLt
  · intro k
    exact Vector.getElem_replicate k.isLt
  · exact Framebuffer.cell_clear

/-- Settles O18: `State.load` accepts by the length of the image alone, and the bytes written from 0x200 on are the
image's. -/
theorem loadAcceptsOrRejectsTheImage : Obligations.LoadAcceptsOrRejectsTheImage := by
  intro c image
  refine ⟨fun hphase hlen => ?_, fun hphase hlen => ⟨?_, rfl⟩, fun hphase => ?_⟩
  · refine ⟨⟨.loaded, { c.state with mem := c.state.mem.writeFrom 0x200 image }⟩, ?_, rfl, fun a => ?_⟩
    · rw [hostMove, if_neg hphase, Session.load, State.load_eq, if_pos hlen]
    · exact Memory.read_writeFrom _ _ _ _
  · rw [hostMove, if_neg hphase, Session.load, State.load_eq, if_neg (Nat.not_le_of_lt hlen)]
  · rw [hostMove, if_pos hphase]

/-- Settles O19: each move's effect and reply stand in its definition; a tick is the step of a core whose last load was
not refused. -/
theorem hostMovesDoWhatTheInterfaceSays : Obligations.HostMovesDoWhatTheInterfaceSays := by
  intro c
  refine ⟨⟨c.state.resetMove, rfl, rfl⟩, fun _ => rfl, rfl, rfl, fun hphase t hstep => ?_⟩
  rw [hostMove, if_neg hphase, Session.tick, hstep]

/-- Settles O20: the jump sets pc back to where Fetch read it, so pc, memory and the run state are as before. -/
theorem idleSelfJumpOnlyCountsTimers : Obligations.IdleSelfJumpOnlyCountsTimers := by
  intro s hidle
  obtain ⟨nnn, hdec, hrun, hself⟩ := s.idle_iff.mp hidle
  have hexec : exec (.jp nnn) s.fetch = .next { s with out := Out.none } := by
    rw [jpSetsPcToTheAddress]
    change Host.Outcome.next { s with pc := zextAddr nnn, out := Out.none } = _
    rw [hself]
  have hframe := State.finishCycle_frame { s with out := Out.none }
  refine ⟨_, step_of_decode hrun hdec hexec, hframe, State.report_finishCycle _, ?_⟩
  rw [hframe]
  exact (s.idle_congr _ _ _).trans hidle

end Sys2Proof.Machine
end

section
/-! The statements of jumps, the call stack and skips on registers (spec/40_control_flow.md). -/

namespace Sys2Proof.Machine

/-! ## Conditions outside a cycle -/

/-- A fatal condition as `exec` raises it, with the halt its code causes (R214). -/
theorem raiseCondition_eq (s : State) (c : ConditionCode) (mask : Option Word) :
    s.raiseCondition c mask =
      { s with
        halted := c.haltReason.or s.halted
        out := { s.out with
          report := some ⟨c, s.wordAt ((s.pc - 2) &&& 0xFFF), (s.pc - 2).setWidth 12, mask⟩ } } := by
  rw [← setWidth_here]
  rfl

/-- The step of an instruction that takes a fatal condition: the word and its address are those of the fetch, and the
cycle has no Timer-Tick (R90, R214). -/
theorem step_of_fatal {s : State} {i : Instr} {c : ConditionCode} {r : HaltReason} (hrun : s.halted = none)
    (hdec : decode s.bytesAtPc = .instr i) (hexec : exec i s.fetch = .next (s.fetch.raiseCondition c none))
    (hc : c.haltReason = some r) :
    step s = .next
      { s with
        pc := (s.pc + 2) &&& 0xFFF
        halted := some r
        out := ⟨false, some ⟨c, s.bytesAtPc, s.pc.setWidth 12, none⟩⟩ } := by
  have hhalts : (s.fetch.raiseCondition c none).halted ≠ none := by
    rw [State.raiseCondition_halted, hc]
    exact Option.some_ne_none r
  rw [step_of_decode hrun hdec hexec, State.finishCycle_halted hhalts, raiseCondition_fetch, hc]
  rfl

/-! ## CALL and RET where the stack allows them, and where it does not -/

theorem exec_call_full {s : State} (nnn : Addr) (h : 16 ≤ s.stack.length) :
    exec (.call nnn) s = .next (s.raiseCondition .stackOverflow none) := by
  obtain ⟨hroom, -⟩ | ⟨-, hexec⟩ := exec_call_cases nnn s
  · exact absurd h (Nat.not_le_of_lt hroom)
  · exact hexec

theorem exec_ret_empty {s : State} (h : s.stack = []) : exec .ret s = .next (s.raiseCondition .stackUnderflow none) := by
  obtain ⟨a, rest, hstack, -⟩ | ⟨-, hexec⟩ := exec_ret_cases s
  · exact absurd (hstack.symm.trans h) (List.cons_ne_nil a rest)
  · exact hexec

/-! ## The statements -/

/-- Settles O27: the write to pc masks the sum of two values too small to overflow 16 bits. -/
theorem jpV0AddsV0Modulo4096 : Obligations.JpV0AddsV0Modulo4096 := by
  intro nnn s
  refine ⟨s.setPc (zextAddr nnn + zextByte s.v[0]), rfl, rfl, ?_⟩
  have haddr := nnn.isLt
  have hbyte := s.v[0].isLt
  rw [State.setPc_pc, toNat_and_mask, BitVec.toNat_add, toNat_zextAddr, toNat_zextByte]
  omega

/-- Settles O28: with room on the stack the push happens. -/
theorem callPushesTheReturnAddress : Obligations.CallPushesTheReturnAddress := by
  intro nnn s hroom
  obtain ⟨-, hexec⟩ | ⟨hfull, -⟩ := exec_call_cases nnn s
  · exact hexec
  · exact absurd hroom (Nat.not_lt_of_le hfull)

/-- Settles O29: the push on a full stack is the fatal condition, in `exec` and over the cycle. -/
theorem callOnFullStackHalts : Obligations.CallOnFullStackHalts := by
  refine ⟨fun nnn s hfull => ?_, fun nnn s hrun hfull hdec => ?_⟩
  · rw [exec_call_full nnn hfull, raiseCondition_eq]
    rfl
  · have hexec : exec (.call nnn) s.fetch = .next (s.fetch.raiseCondition .stackOverflow none) :=
      exec_call_full nnn hfull
    exact step_of_fatal hrun hdec hexec rfl

/-- Settles O30: RET on a non-empty stack pops its top. -/
theorem retPopsTheReturnAddress : Obligations.RetPopsTheReturnAddress := by
  intro s a rest hstack
  obtain ⟨a', rest', hstack', hexec⟩ | ⟨hempty, -⟩ := exec_ret_cases s
  · cases hstack.symm.trans hstack'
    exact hexec
  · exact absurd (hstack.symm.trans hempty) (List.cons_ne_nil a rest)

/-- Settles O31: the pop of an empty stack is the fatal condition, in `exec` and over the cycle. -/
theorem retOnEmptyStackHalts : Obligations.RetOnEmptyStackHalts := by
  refine ⟨fun s hempty => ?_, fun s hrun hempty hdec => ?_⟩
  · rw [exec_ret_empty hempty, raiseCondition_eq]
    rfl
  · have hexec : exec .ret s.fetch = .next (s.fetch.raiseCondition .stackUnderflow none) := exec_ret_empty hempty
    exact step_of_fatal hrun hdec hexec rfl

/-- Settles O33: both skips are `skipIf` of their condition, and the decoder of classes 5 and 9 reads no low nibble. -/
theorem skipsOnRegistersCompareTheTwo : Obligations.SkipsOnRegistersCompareTheTwo := by
  intro x y n s
  refine ⟨?_, ?_, ?_, ?_⟩
  · have hexec : exec (.seReg x y) s = .next (s.skipIf (s.v[x] == s.v[y])) := exec_eq_skipIf rfl
    simp only [hexec, State.skipIf_eq, beq_iff_eq]
  · have hexec : exec (.sneReg x y) s = .next (s.skipIf (s.v[x] != s.v[y])) := exec_eq_skipIf rfl
    simp only [hexec, State.skipIf_eq, bne_iff_ne]
  · change decode (formatXY 0x5 x y n) = _
    simp [decode]
  · change decode (formatXY 0x9 x y n) = _
    simp [decode]

end Sys2Proof.Machine
end

section
/-! The statements of logic, sums, differences, shifts and random bytes (spec/41_arithmetic.md). -/

namespace Sys2Proof.Machine

/-! ## Results and flags -/

/-- An instruction whose whole effect is a result and then the flag completes with the flag in VF, and with the result in
`Vx` where x is not F (R132). -/
theorem writes_result_then_flag {i : Instr} {s : State} {x : Reg} {r f : Byte}
    (h : exec i s = .next (s.setResultThenFlag x r f)) :
    ∃ t, exec i s = .next t ∧ OnlyRegs [x, vf] s t ∧ (x ≠ vf → t.v[x] = r) ∧ t.v[vf] = f :=
  ⟨_, h, onlyRegs_setResultThenFlag s x r f, v_setResultThenFlag_dest s x r f, v_setResultThenFlag_vf s x r f⟩

/-- A register write whose value is known bit by bit (R123 to R125). -/
theorem writes_bits {i : Instr} {s : State} {x : Reg} {b : Byte} {bit : Nat → Bool}
    (h : exec i s = .next (s.setV x b)) (hbit : ∀ k, b.getLsbD k = bit k) :
    ∃ t, exec i s = .next t ∧ OnlyRegs [x] s t ∧ ∀ k, t.v[x].getLsbD k = bit k := by
  obtain ⟨t, hexec, hframe, hvalue⟩ := writes_one_register h
  exact ⟨t, hexec, hframe, fun k => by rw [hvalue, hbit]⟩

theorem flagByte_decide (p : Prop) [Decidable p] : flagByte (decide p) = if p then 1 else 0 := by
  by_cases h : p <;> simp [flagByte, h]

theorem toNat_sub_byte (a b : Byte) : (a - b).toNat = (a.toNat + 256 - b.toNat) % 256 := by
  have := b.isLt
  rw [BitVec.toNat_sub]
  omega

theorem toNat_shrFlag (a : Byte) : (shrFlag a).toNat = a.toNat % 2 := by
  rw [shrFlag, BitVec.toNat_and]
  exact Nat.and_one_is_mod _

theorem toNat_shlFlag (a : Byte) : (shlFlag a).toNat = a.toNat / 128 := by
  have hlt := a.isLt
  have hbit : (shlFlag a).toNat = (a >>> 7).toNat % 2 := toNat_shrFlag (a >>> 7)
  rw [hbit, BitVec.toNat_ushiftRight, Nat.shiftRight_eq_div_pow]
  omega

/-! ## The statements -/

/-- Settles O36: each of the three is one register write of the bitwise result. -/
theorem logicOperationsAreBitwiseAndLeaveVfAlone : Obligations.LogicOperationsAreBitwiseAndLeaveVfAlone := by
  intro x y s
  exact ⟨writes_bits rfl fun _ => BitVec.getLsbD_or, writes_bits rfl fun _ => BitVec.getLsbD_and,
    writes_bits rfl fun _ => BitVec.getLsbD_xor⟩

/-- Settles O37: the result is the sum of bytes, and the flag, written last, is its carry. -/
theorem addSetsCarryLast : Obligations.AddSetsCarryLast := by
  intro x y s
  obtain ⟨t, hexec, hframe, hsum, hflag⟩ := writes_result_then_flag
    (show exec (.addReg x y) s = .next (s.setResultThenFlag x (s.v[x] + s.v[y]) (carryFlag s.v[x] s.v[y])) from rfl)
  refine ⟨t, hexec, hframe, fun hx => ?_, ?_⟩
  · rw [hsum hx]
    exact BitVec.toNat_add s.v[x] s.v[y]
  · rw [hflag, carryFlag, flagByte_decide]

/-- An instruction that writes `a - b` and the NOT-borrow of it meets the claim of the two subtractions (R127, R129). -/
theorem writes_difference {i : Instr} {s : State} {x : Reg} {a b : Byte}
    (h : exec i s = .next (s.setResultThenFlag x (a - b) (notBorrowFlag a b))) :
    ∃ t, exec i s = .next t ∧ OnlyRegs [x, vf] s t ∧
      (x ≠ vf → t.v[x].toNat = (a.toNat + 256 - b.toNat) % 256) ∧
      t.v[vf] = (if a.toNat > b.toNat then 1 else 0) := by
  obtain ⟨t, hexec, hframe, hdifference, hflag⟩ := writes_result_then_flag h
  refine ⟨t, hexec, hframe, fun hx => ?_, ?_⟩
  · rw [hdifference hx, toNat_sub_byte]
  · rw [hflag, notBorrowFlag, flagByte_decide]

/-- Settles O38: SUB and SUBN write the same difference with its operands exchanged. -/
theorem subtractionsSetStrictNotBorrow : Obligations.SubtractionsSetStrictNotBorrow := by
  intro x y s
  exact ⟨writes_difference rfl, writes_difference rfl⟩

/-- Settles O39: halving and doubling are the shifts by one, and the flag is the bit at the end that is shifted out. -/
theorem shiftsMoveVxByOneBit : Obligations.ShiftsMoveVxByOneBit := by
  intro x y s
  constructor
  · obtain ⟨t, hexec, hframe, hhalf, hflag⟩ := writes_result_then_flag
      (show exec (.shr x y) s = .next (s.setResultThenFlag x (s.v[x] >>> 1) (shrFlag s.v[x])) from rfl)
    refine ⟨t, hexec, hframe, fun hx => ?_, ?_⟩
    · rw [hhalf hx, BitVec.toNat_ushiftRight, Nat.shiftRight_eq_div_pow]
    · rw [hflag, toNat_shrFlag]
  · obtain ⟨t, hexec, hframe, hdouble, hflag⟩ := writes_result_then_flag
      (show exec (.shl x y) s = .next (s.setResultThenFlag x (s.v[x] <<< 1) (shlFlag s.v[x])) from rfl)
    refine ⟨t, hexec, hframe, fun hx => ?_, ?_⟩
    · rw [hdouble hx, BitVec.toNat_shiftLeft, Nat.shiftLeft_eq]
      omega
    · rw [hflag, toNat_shlFlag]

/-- Settles O40: RND is one register write of the masked byte after the draw is counted. -/
theorem rndMasksAFreeByte : Obligations.RndMasksAFreeByte := by
  intro x kk s
  have hx : (s.countDraw.setV x (s.nextByte &&& kk)).v[x] = Config.randomByte s.draws &&& kk :=
    v_setV_same s.countDraw x _
  obtain ⟨-, hothers⟩ := onlyRegs_setV s.countDraw x (s.nextByte &&& kk)
  refine ⟨_, rfl, rfl, fun r hr => hothers r (by simpa using hr), hx, fun k hk => ?_, fun hkk => ?_⟩
  · rw [hx, BitVec.getLsbD_and, hk, Bool.and_false]
  · rw [hx, hkk]
    exact BitVec.and_allOnes

end Sys2Proof.Machine
end

section
/-! The statements of timers, the key wait, ADD I and stores that are read back (spec/43_input_timers.md, spec/44_index_memory.md, spec/20_memory.md). -/

namespace Sys2Proof.Machine

/-- A cycle that does not halt is Fetch, the instruction and the Timer-Tick. -/
theorem step_then_timerTick {s t : State} {i : Instr} (hrun : s.halted = none) (hdec : decode s.bytesAtPc = .instr i)
    (hexec : exec i s.fetch = .next t) (hgoes : t.halted = none) : step s = .next t.timerTick := by
  rw [step_of_decode hrun hdec hexec, State.finishCycle_running hgoes]

/-! ## The key wait -/

theorem exec_ldVK_blocked {s : State} (x : Reg) (h : ∀ k : Reg, s.key[k] = false) :
    exec (.ldVK x) s = .next (s.setPc (s.pc - 2)) := by
  rw [exec_ldVK, s.lowestPressed_eq_none.mpr h]

theorem exec_ldVK_pressed {s : State} (x k : Reg) (hk : s.key[k] = true) (hleast : ∀ j, j < k → s.key[j] = false) :
    exec (.ldVK x) s = .next (s.setV x (keyByte k)) := by
  rw [exec_ldVK, (s.lowestPressed_eq_some k).mpr ⟨hk, hleast⟩]

theorem toNat_keyByte (k : Reg) : (keyByte k).toNat = k.val := by
  have := k.isLt
  rw [keyByte, BitVec.toNat_ofNat]
  omega

/-- The rewind takes back the fetch increment (R173). -/
theorem fetch_setPc_rewind (s : State) :
    s.fetch.setPc (s.fetch.pc - 2) = { s with pc := s.pc &&& Config.addrMask, out := Out.none } := by
  rw [← s.here_fetch]
  rfl

/-! ## ADD I -/

/-- The index after ADD I; the sum does not overflow 16 bits where it is over 0xFFF (R191). -/
theorem toNat_index_add_and_mask (i : Word) (b : Byte) :
    ((i + zextByte b) &&& Config.addrMask).toNat = (i.toNat + b.toNat) % 4096 := by
  rw [toNat_and_mask, BitVec.toNat_add, toNat_zextByte]
  omega

/-! ## The statements -/

/-- Settles O2: `cellOf` is the address modulo 4096, for reads, for writes and for data addresses. -/
theorem addressesAreReducedModulo4096 : Obligations.AddressesAreReducedModulo4096 := by
  intro s a b k
  refine ⟨?_, fun c => ?_, rfl, cellOf_indexed s k⟩
  · rw [State.memRead, cellOf_eq_mod]
  · rw [State.memWrite_mem, Memory.read_store, cellOf_eq_mod]

/-- Settles O41: CLS writes the clear framebuffer, whose cells are all false. -/
theorem clsClearsEveryCellAndSetsDirty : Obligations.ClsClearsEveryCellAndSetsDirty := by
  intro s
  exact ⟨{ s with fb := Framebuffer.clear, dirty := true }, rfl, rfl, Framebuffer.cell_clear⟩

/-- Settles O47: LD Vx, DT is one register write, and each of the other two writes its timer. -/
theorem timerInstructionsMoveOneByte : Obligations.TimerInstructionsMoveOneByte := by
  intro x s
  exact ⟨writes_one_register rfl, rfl, rfl⟩

/-- Settles O48: each instruction runs after Fetch, which touches no timer, and before the Timer-Tick, which counts down
what the instruction left. -/
theorem timerInstructionsWithinTheirCycle : Obligations.TimerInstructionsWithinTheirCycle := by
  intro s x hrun
  refine ⟨fun hdec => ?_, fun hdec => ?_, fun hdec => ?_⟩
  · have hexec : exec (.ldVDt x) s.fetch = .next (s.fetch.setV x s.dt) := rfl
    exact ⟨_, step_then_timerTick hrun hdec hexec hrun, v_setV_same s.fetch x s.dt, toNat_timerDown s.dt⟩
  · have hexec : exec (.ldDtV x) s.fetch = .next { s.fetch with dt := s.v[x] } := rfl
    exact ⟨_, step_then_timerTick hrun hdec hexec hrun, toNat_timerDown s.v[x]⟩
  · have hexec : exec (.ldStV x) s.fetch = .next { s.fetch with st := s.v[x] } := rfl
    refine ⟨_, step_then_timerTick hrun hdec hexec hrun, toNat_timerDown s.v[x], ?_⟩
    rw [State.timerTick_out, decide_eq_true_iff]
    exact BitVec.toNat_inj.symm

/-- Settles O49: `lowest_pressed()` is none exactly with no key down, and else the least key that is down. -/
theorem keyWaitTakesTheLowestKeyOrRewinds : Obligations.KeyWaitTakesTheLowestKeyOrRewinds := by
  refine ⟨fun x s hup => exec_ldVK_blocked x hup, fun x s k hk hleast => ?_⟩
  obtain ⟨t, hexec, hframe, hkey⟩ := writes_one_register (exec_ldVK_pressed x k hk hleast)
  exact ⟨t, hexec, hframe, by rw [hkey, toNat_keyByte]⟩

/-- Settles O50: Fetch and the rewind leave pc masked, and the core goes on, so the Timer-Tick follows. -/
theorem blockedKeyWaitHoldsPcWhileTimersRun : Obligations.BlockedKeyWaitHoldsPcWhileTimersRun := by
  intro s x hrun hdec hup
  have hexec : exec (.ldVK x) s.fetch = .next (s.fetch.setPc (s.fetch.pc - 2)) := exec_ldVK_blocked x hup
  rw [step_then_timerTick hrun hdec hexec hrun, fetch_setPc_rewind]
  rfl

/-- Settles O52: the index is the masked sum, and VF alone of the registers is written, with the overflow. -/
theorem addISetsVfOnTwelveBitOverflow : Obligations.AddISetsVfOnTwelveBitOverflow := by
  intro x s
  obtain ⟨-, hothers⟩ := onlyRegs_setV (s.setI (s.i + zextByte s.v[x])) vf (indexOverflowFlag s.i s.v[x])
  refine ⟨_, exec_addI x s, rfl, fun r hr => hothers r (by simpa using hr), toNat_index_add_and_mask s.i s.v[x], ?_⟩
  exact (v_setV_same (s.setI (s.i + zextByte s.v[x])) vf _).trans (flagByte_decide _)

/-- Settles O56: the load reads, from the same index, the cells that the store has written. -/
theorem loadAfterStoreRestoresTheRegisters : Obligations.LoadAfterStoreRestoresTheRegisters := by
  intro x s t u w hstore hload
  obtain ⟨-, hstored, -⟩ := s.storeRegs_spec x
  rw [exec_ldMemV] at hstore
  cases hstore
  rw [exec_ldVMem] at hload
  cases hload
  obtain ⟨-, hloaded⟩ := State.loadRegs_spec { s with v := w, mem := (s.storeRegs x).mem } x
  refine ⟨fun r hr => ?_, fun r hr => ?_, rfl, rfl⟩
  · refine (hloaded r).trans ?_
    rw [if_pos hr]
    exact hstored r hr
  · refine (hloaded r).trans ?_
    rw [if_neg (Fin.not_le.mpr hr)]

/-- Settles O57: the next fetch reads the cells of I + k and of I + k + 1, which follow each other modulo 4096 as the two
bytes at pc do, and the store has put V[k] and V[k + 1] there. -/
theorem storedBytesAreTheNextWordFetched : Obligations.StoredBytesAreTheNextWordFetched := by
  intro s t x k hrun hdec hstep hk hpc
  obtain ⟨-, hstored, -⟩ := s.fetch.storeRegs_spec x
  have hmem : t.mem = (s.fetch.storeRegs x).mem := by
    cases (step_then_timerTick hrun hdec (exec_ldMemV x s.fetch) hrun).symm.trans hstep
    rfl
  have hnext : cellOf (s.indexed (k.val + 1)) = (t.pc.toNat + 1) % 4096 := by
    rw [cellOf_indexed] at hpc ⊢
    omega
  have hfirst : t.mem.read (cellOf (s.indexed k.val)) = s.v[k.val] := by
    rw [hmem]
    exact hstored ⟨k.val, by omega⟩ (Nat.le_of_lt hk)
  have hsecond : t.mem.read (cellOf (s.indexed (k.val + 1))) = s.v[k.val + 1] := by
    rw [hmem]
    exact hstored ⟨k.val + 1, by omega⟩ hk
  rw [t.fetchWord_eq, State.bytesAtPc, ← hpc, ← hnext, hfirst, hsecond]

end Sys2Proof.Machine
end

section
/-! The statements of decoding and encoding (spec/30_encoding.md). -/

namespace Sys2Proof

/-! ## The decoder on encoded words -/

/-- Settles O21: every field of an encoded word is what the format put there, so the two lookups find the operation of its
class and key. -/
theorem decodeOfEncodeIsTheInstruction : Obligations.DecodeOfEncodeIsTheInstruction := by
  intro i hwf
  cases i with
  | drw x y n =>
    have hn : n % 16 = n := Nat.mod_eq_of_lt (Nat.lt_succ_of_le (of_decide_eq_true hwf))
    simp [encode, decode, hn]
  | cls | ret => rfl
  | jp | call | ldI | jpV0 => simp [encode, decode]
  | seByte | sneByte | ldByte | addByte | rnd => simp [encode, decode]
  | seReg | sneReg => simp [encode, decode]
  | ldReg | orReg | andReg | xorReg | addReg | subReg | shr | subn | shl => simp [encode, decode, decodeClass8]
  | skp | sknp => simp [encode, decode, decodeClassE]
  | ldVDt | ldVK | ldDtV | ldStV | addI | ldF | ldB | ldMemV | ldVMem => simp [encode, decode, decodeClassF]

/-! ## The words that the second lookups miss -/

theorem decodeClass0_eq_unrecognized (w m : Word) :
    decodeClass0 w = .unrecognized m ↔ w.toNat % 256 ∉ [0xE0, 0xEE] ∧ m = 0xF0FF := by
  unfold decodeClass0
  rw [toNat_fieldKk]
  split <;> simp_all [maskByteKey, eq_comm]

theorem decodeClass8_eq_unrecognized (w m : Word) :
    decodeClass8 w = .unrecognized m ↔ w.toNat % 16 ∈ [0x8, 0x9, 0xA, 0xB, 0xC, 0xD, 0xF] ∧ m = 0xF00F := by
  have hkey : w.toNat % 16 < 16 := Nat.mod_lt _ (by decide)
  unfold decodeClass8
  rw [toNat_fieldN]
  generalize w.toNat % 16 = key at hkey ⊢
  interval_cases key <;> simp [maskNibbleKey, eq_comm]

theorem decodeClassE_eq_unrecognized (w m : Word) :
    decodeClassE w = .unrecognized m ↔ w.toNat % 256 ∉ [0x9E, 0xA1] ∧ m = 0xF0FF := by
  unfold decodeClassE
  rw [toNat_fieldKk]
  split <;> simp_all [maskByteKey, eq_comm]

theorem decodeClassF_eq_unrecognized (w m : Word) :
    decodeClassF w = .unrecognized m ↔
      w.toNat % 256 ∉ [0x07, 0x0A, 0x15, 0x18, 0x1E, 0x29, 0x33, 0x55, 0x65] ∧ m = 0xF0FF := by
  unfold decodeClassF
  rw [toNat_fieldKk]
  split <;> simp_all [maskByteKey, eq_comm]

/-- Settles O24: twelve classes name one operation each, and in the other four the second lookup decides. -/
theorem unrecognizedWordsAreExactlyTheListed : Obligations.UnrecognizedWordsAreExactlyTheListed := by
  intro w m
  have hclass : w.toNat / 4096 < 16 := by have := w.isLt; omega
  unfold decode
  rw [toNat_fieldClass]
  generalize w.toNat / 4096 = c at hclass ⊢
  interval_cases c <;>
    simp [decodeClass0_eq_unrecognized, decodeClass8_eq_unrecognized, decodeClassE_eq_unrecognized,
      decodeClassF_eq_unrecognized]

/-! ## A word from its class and key -/

theorem fieldClass_eq {w : Word} {c : BitVec 4} (h : (fieldClass w).toNat = c.toNat) : fieldClass w = c :=
  BitVec.eq_of_toNat_eq h

theorem formatA_of_class {w : Word} {c : BitVec 4} (hc : (fieldClass w).toNat = c.toNat) :
    formatA c (fieldNnn w) = w := by
  rw [← fieldClass_eq hc, formatA_fields]

theorem formatXK_of_key {w : Word} {c : BitVec 4} {kk : Byte} (hc : (fieldClass w).toNat = c.toNat)
    (hkk : (fieldKk w).toNat = kk.toNat) : formatXK c (fieldX w) kk = w := by
  rw [← fieldClass_eq hc, ← BitVec.eq_of_toNat_eq hkk, formatXK_fields]

theorem formatXY_of_key {w : Word} {c n : BitVec 4} (hc : (fieldClass w).toNat = c.toNat)
    (hn : (fieldN w).toNat = n.toNat) : formatXY c (fieldX w) (fieldY w) n = w := by
  rw [← fieldClass_eq hc, ← BitVec.eq_of_toNat_eq hn, formatXY_fields]

/-! ## Encoding what the second lookups find -/

theorem encode_of_decodeClass0 {w : Word} {i : Instr} (hc : (fieldClass w).toNat = 0)
    (h : decodeClass0 w = .instr i) : i.wf = true ∧ encode i = w &&& 0xF0FF := by
  have hword : w &&& 0xF0FF = formatXK 0 0 (fieldKk w) := by
    rw [← fieldClass_eq (c := 0) hc]
    exact and_byteMask w
  rw [hword]
  unfold decodeClass0 at h
  split at h <;> cases h
  case h_1 hkk => exact ⟨rfl, by rw [BitVec.eq_of_toNat_eq (y := 0xE0#8) hkk]; rfl⟩
  case h_2 hkk => exact ⟨rfl, by rw [BitVec.eq_of_toNat_eq (y := 0xEE#8) hkk]; rfl⟩

theorem encode_of_decodeClass8 {w : Word} {i : Instr} (hc : (fieldClass w).toNat = 8)
    (h : decodeClass8 w = .instr i) : i.wf = true ∧ encode i = w := by
  unfold decodeClass8 at h
  split at h <;> cases h <;> exact ⟨rfl, formatXY_of_key hc ‹_›⟩

theorem encode_of_decodeClassE {w : Word} {i : Instr} (hc : (fieldClass w).toNat = 14)
    (h : decodeClassE w = .instr i) : i.wf = true ∧ encode i = w := by
  unfold decodeClassE at h
  split at h <;> cases h <;> exact ⟨rfl, formatXK_of_key hc ‹_›⟩

theorem encode_of_decodeClassF {w : Word} {i : Instr} (hc : (fieldClass w).toNat = 15)
    (h : decodeClassF w = .instr i) : i.wf = true ∧ encode i = w := by
  unfold decodeClassF at h
  split at h <;> cases h <;> exact ⟨rfl, formatXK_of_key hc ‹_›⟩

/-- In classes 5 and 9 the low nibble is not read, and the encoding has 0 there. -/
theorem formatXY_of_class {w : Word} {c : BitVec 4} (hc : (fieldClass w).toNat = c.toNat) :
    formatXY c (fieldX w) (fieldY w) 0 = w &&& 0xFFF0 := by
  rw [and_highMask, fieldClass_eq hc]

/-- The height of a decoded DRW is a nibble, so the encoding takes it up unchanged (R77). -/
theorem encode_drw_of_class {w : Word} (hc : (fieldClass w).toNat = 13) :
    (Instr.drw (fieldX w) (fieldY w) (fieldN w).toNat).wf = true ∧
      encode (.drw (fieldX w) (fieldY w) (fieldN w).toNat) = w := by
  have hn : (fieldN w).toNat ≤ 15 := Nat.le_of_lt_succ (fieldN w).isLt
  refine ⟨decide_eq_true hn, formatXY_of_key hc ?_⟩
  rw [BitVec.ofNat_toNat, BitVec.setWidth_eq]

/-- Settles O22: outside class 0 the encoding takes up the very fields the decoder has read, so the word is put together
again from its fields. -/
theorem encodeOfDecodeKeepsAllBitsTheDecoderReads : Obligations.EncodeOfDecodeKeepsAllBitsTheDecoderReads := by
  intro w i h
  have hclass : (fieldClass w).toNat < 16 := (fieldClass w).isLt
  have hall : i.wf = true ∧ encode i = w → i.wf = true ∧ encode i = w &&& 0xFFFF := by
    rw [show w &&& 0xFFFF = w from BitVec.and_allOnes]
    exact id
  rw [← toNat_fieldClass]
  unfold decode at h
  -- the classes 0 to F in order
  interval_cases hc : (fieldClass w).toNat
  · exact encode_of_decodeClass0 hc h
  · cases h; exact hall ⟨rfl, formatA_of_class hc⟩
  · cases h; exact hall ⟨rfl, formatA_of_class hc⟩
  · cases h; exact hall ⟨rfl, formatXK_of_key hc rfl⟩
  · cases h; exact hall ⟨rfl, formatXK_of_key hc rfl⟩
  · cases h; exact ⟨rfl, formatXY_of_class hc⟩
  · cases h; exact hall ⟨rfl, formatXK_of_key hc rfl⟩
  · cases h; exact hall ⟨rfl, formatXK_of_key hc rfl⟩
  · exact hall (encode_of_decodeClass8 hc h)
  · cases h; exact ⟨rfl, formatXY_of_class hc⟩
  · cases h; exact hall ⟨rfl, formatA_of_class hc⟩
  · cases h; exact hall ⟨rfl, formatA_of_class hc⟩
  · cases h; exact hall ⟨rfl, formatXK_of_key hc rfl⟩
  · cases h; exact hall (encode_drw_of_class hc)
  · exact hall (encode_of_decodeClassE hc h)
  · exact hall (encode_of_decodeClassF hc h)

/-! ## The rows of the opcode map -/

/-- The rows of one class (R71). -/
def rowsOfClass (c : Nat) : List OpcodeRow := opcodeRows.filter fun r => r.pattern.toNat / 4096 == c

theorem selects_classMask (w p : Word) (m : String) :
    selects w ⟨p, 0xF000, m⟩ = decide (w.toNat / 4096 * 4096 = p.toNat) := by
  rw [selects, and_classMask, beq_eq_decide]
  simp [← BitVec.toNat_inj, toNat_formatXK, toNat_fieldClass]

theorem selects_byteMask (w p : Word) (m : String) :
    selects w ⟨p, 0xF0FF, m⟩ = decide (w.toNat / 4096 * 4096 + w.toNat % 256 = p.toNat) := by
  have hword : w &&& 0xF0FF = formatXK (fieldClass w) 0 (fieldKk w) := and_byteMask w
  rw [selects, hword, beq_eq_decide]
  simp [← BitVec.toNat_inj, toNat_formatXK, toNat_fieldClass, toNat_fieldKk]

theorem selects_nibbleMask (w p : Word) (m : String) :
    selects w ⟨p, 0xF00F, m⟩ = decide (w.toNat / 4096 * 4096 + w.toNat % 16 = p.toNat) := by
  have hword : w &&& 0xF00F = formatXY (fieldClass w) 0 0 (fieldN w) := and_nibbleMask w
  rw [selects, hword, beq_eq_decide]
  simp [← BitVec.toNat_inj, toNat_formatXY, toNat_fieldClass, toNat_fieldN]

theorem mask_of_row : ∀ r ∈ opcodeRows, r.mask = 0xF000 ∨ r.mask = 0xF0FF ∨ r.mask = 0xF00F := by decide

/-- Every mask keeps the class (R73), so a word selects rows of its own class only. -/
theorem class_of_selects {w : Word} {r : OpcodeRow} (hr : r ∈ opcodeRows) (h : selects w r = true) :
    r.pattern.toNat / 4096 = w.toNat / 4096 := by
  obtain ⟨p, mask, m⟩ := r
  obtain rfl | rfl | rfl := mask_of_row _ hr
  · rw [selects_classMask, decide_eq_true_iff] at h
    change p.toNat / 4096 = _
    omega
  · rw [selects_byteMask, decide_eq_true_iff] at h
    change p.toNat / 4096 = _
    omega
  · rw [selects_nibbleMask, decide_eq_true_iff] at h
    change p.toNat / 4096 = _
    omega

theorem filter_selects_eq (w : Word) :
    opcodeRows.filter (selects w) = (rowsOfClass (w.toNat / 4096)).filter (selects w) := by
  rw [rowsOfClass, List.filter_filter]
  refine List.filter_congr fun r hr => ?_
  cases h : selects w r with
  | false => rfl
  | true => simp [class_of_selects hr h]

/-- The mnemonics of the rows of class `c` that the word selects. -/
def selectedOfClass (c : Nat) (w : Word) : List String := ((rowsOfClass c).filter (selects w)).map OpcodeRow.mnemonic

/-- A class of one row with the class mask names one operation, whatever the other bits are (R74). -/
theorem selectedOfClass_single {w p : Word} {c : Nat} {m : String} (hrows : rowsOfClass c = [⟨p, 0xF000, m⟩])
    (hc : w.toNat / 4096 = c) (hp : c * 4096 = p.toNat) : selectedOfClass c w = [m] := by
  have hselects : selects w ⟨p, 0xF000, m⟩ = true := by rw [selects_classMask, hc, decide_eq_true hp]
  rw [selectedOfClass, hrows, List.filter_cons_of_pos hselects]
  rfl

/-- Among the rows of a class that is keyed by the lowest byte, the key selects (R73). -/
theorem filter_selects_byteKey {rows : List OpcodeRow} {w : Word} {c : Nat} (hc : w.toNat / 4096 = c)
    (hrows : ∀ r ∈ rows, r.mask = 0xF0FF ∧ r.pattern.toNat / 256 = 16 * c) :
    rows.filter (selects w) = rows.filter fun r => w.toNat % 256 == r.pattern.toNat % 256 := by
  refine List.filter_congr fun r hr => ?_
  obtain ⟨p, mask, m⟩ := r
  obtain ⟨rfl, hp⟩ := hrows _ hr
  change p.toNat / 256 = 16 * c at hp
  rw [selects_byteMask, hc, beq_eq_decide, decide_eq_decide]
  change _ ↔ w.toNat % 256 = p.toNat % 256
  omega

theorem selectedOfClass_zero {w : Word} (hc : w.toNat / 4096 = 0) :
    selectedOfClass 0 w = (decodeClass0 w).mnemonics := by
  have hrows : rowsOfClass 0 = opcodeRowsLow.take 2 := rfl
  rw [selectedOfClass, hrows, filter_selects_byteKey hc (by decide), decodeClass0, toNat_fieldKk]
  generalize w.toNat % 256 = key
  split
  case h_3 => simp_all [opcodeRowsLow, Decoded.mnemonics]
  all_goals rfl

theorem selectedOfClass_eight {w : Word} (hc : w.toNat / 4096 = 8) :
    selectedOfClass 8 w = (decodeClass8 w).mnemonics := by
  have hrows : rowsOfClass 8 = opcodeRowsAlu := rfl
  have hkey : w.toNat % 16 < 16 := Nat.mod_lt _ (by decide)
  rw [selectedOfClass, hrows, decodeClass8, toNat_fieldN]
  simp only [opcodeRowsAlu, List.filter_cons, selects_nibbleMask, hc]
  generalize w.toNat % 16 = key at hkey ⊢
  interval_cases key <;> rfl

theorem selectedOfClass_fourteen {w : Word} (hc : w.toNat / 4096 = 14) :
    selectedOfClass 14 w = (decodeClassE w).mnemonics := by
  have hrows : rowsOfClass 14 = (opcodeRowsHigh.drop 5).take 2 := rfl
  rw [selectedOfClass, hrows, filter_selects_byteKey hc (by decide), decodeClassE, toNat_fieldKk]
  generalize w.toNat % 256 = key
  split
  case h_3 => simp_all [opcodeRowsHigh, Decoded.mnemonics]
  all_goals rfl

theorem selectedOfClass_fifteen {w : Word} (hc : w.toNat / 4096 = 15) :
    selectedOfClass 15 w = (decodeClassF w).mnemonics := by
  have hrows : rowsOfClass 15 = opcodeRowsHigh.drop 7 := rfl
  rw [selectedOfClass, hrows, filter_selects_byteKey hc (by decide), decodeClassF, toNat_fieldKk]
  generalize w.toNat % 256 = key
  split
  case h_10 => simp_all [opcodeRowsHigh, Decoded.mnemonics]
  all_goals rfl

/-- Settles O23: a word selects rows of its own class only; twelve classes have one row each, and in the other four the
rows are selected by the key of the second lookup. -/
theorem decodingFollowsTheOpcodeMap : Obligations.DecodingFollowsTheOpcodeMap := by
  intro w
  have hclass : w.toNat / 4096 < 16 := by have := w.isLt; omega
  rw [filter_selects_eq, ← selectedOfClass, decode, toNat_fieldClass]
  -- the classes 0 to F in order
  interval_cases hc : w.toNat / 4096
  · exact selectedOfClass_zero hc
  · exact selectedOfClass_single rfl hc rfl
  · exact selectedOfClass_single rfl hc rfl
  · exact selectedOfClass_single rfl hc rfl
  · exact selectedOfClass_single rfl hc rfl
  · exact selectedOfClass_single rfl hc rfl
  · exact selectedOfClass_single rfl hc rfl
  · exact selectedOfClass_single rfl hc rfl
  · exact selectedOfClass_eight hc
  · exact selectedOfClass_single rfl hc rfl
  · exact selectedOfClass_single rfl hc rfl
  · exact selectedOfClass_single rfl hc rfl
  · exact selectedOfClass_single rfl hc rfl
  · exact selectedOfClass_single rfl hc rfl
  · exact selectedOfClass_fourteen hc
  · exact selectedOfClass_fifteen hc

/-- Settles O25: each word is in binary digits, and the decoder evaluates on it. -/
theorem sampleWordsDecodeAsTheSpecWritesThem : Obligations.SampleWordsDecodeAsTheSpecWritesThem :=
  ⟨rfl, rfl, rfl, rfl, rfl, rfl, rfl, rfl⟩

end Sys2Proof
end

section
/-! The statements of what a draw leaves on the grid (spec/42_display.md). -/

namespace Sys2Proof.Machine

/-! ## One draw -/

/-- What a completed DRW has done, with the draw it made: the draw's framebuffer and flag, and the same sprite bytes and
index for the next one (R151, R154). -/
theorem drew_of_exec_drw {x y : Reg} {n : Nat} {s t : State} (h : exec (.drw x y n) s = .next t) :
    ∃ d, Draw.Drew s.fb (spriteCovers s x y n) d ∧ t.fb = d.fb ∧ t.v[vf] = flagByte d.collided ∧
      t.mem = s.mem ∧ t.i = s.i := by
  rw [exec_drw] at h
  cases h
  exact ⟨s.drawSprite x y n, s.drew_drawSprite x y n, rfl, v_setV_same s vf _, rfl, rfl⟩

/-- The cells a sprite lights depend on its coordinates, its bytes and the index alone. -/
theorem spriteCovers_congr {s t : State} {x y : Reg} (n : Nat) (hx : t.v[x] = s.v[x]) (hy : t.v[y] = s.v[y])
    (hmem : t.mem = s.mem) (hi : t.i = s.i) : spriteCovers t x y n = spriteCovers s x y n := by
  funext row col
  simp only [spriteCovers, hx, hy, hmem, hi]

/-- The same cells flipped twice are as they were. -/
theorem Draw.Drew.fb_eq_of_twice {f g : Framebuffer} {lit : Fin 32 → Fin 64 → Bool} {d e : Draw}
    (hd : Draw.Drew f lit d) (he : Draw.Drew g lit e) (hg : g = d.fb) : e.fb = f := by
  refine Framebuffer.ext_cell _ _ fun row col => ?_
  rw [he.cell, hg, hd.cell, Bool.xor_assoc, Bool.xor_self, Bool.xor_false]

/-- A draw on the clear framebuffer meets no set cell. -/
theorem Draw.Drew.collided_of_clear {lit : Fin 32 → Fin 64 → Bool} {d : Draw}
    (h : Draw.Drew Framebuffer.clear lit d) : d.collided = false := by
  rw [Bool.eq_false_iff, ne_eq, h.collided]
  simp

/-! ## Counting the lit cells -/

/-- The bit of column `c` in row `r` of the sprite at I, bit 7 leftmost (R152). -/
def pixelBit (s : State) (r c : Nat) : Bool := (s.mem.read ((s.i.toNat + r) % 4096)).getLsbD (7 - c)

/-- The pixels of a sprite of `n` rows that are set and fall within the grid when its corner is at `cx`, `cy` (R153). -/
def visiblePixels (s : State) (n cx cy : Nat) : Finset (Fin n × Fin 8) :=
  Finset.univ.filter fun q => pixelBit s q.1.val q.2.val = true ∧ cx + q.2.val < 64 ∧ cy + q.1.val < 32

/-- The cells that the sprite lights. -/
def litCells (s : State) (x y : Reg) (n : Nat) : Finset (Fin 32 × Fin 64) :=
  Finset.univ.filter fun p => spriteCovers s x y n p.1 p.2 = true

/-- The cell of a pixel inside the grid. -/
def pixelCell {n cx cy : Nat} (q : Fin n × Fin 8) (h : cx + q.2.val < 64 ∧ cy + q.1.val < 32) : Fin 32 × Fin 64 :=
  (⟨cy + q.1.val, h.2⟩, ⟨cx + q.2.val, h.1⟩)

theorem spriteCovers_iff (s : State) (x y : Reg) (n : Nat) (row : Fin 32) (col : Fin 64) :
    spriteCovers s x y n row col = true ↔
      (s.v[x].toNat ≤ col.val ∧ col.val < s.v[x].toNat + 8 ∧ s.v[y].toNat ≤ row.val ∧ row.val < s.v[y].toNat + n) ∧
        pixelBit s (row.val - s.v[y].toNat) (col.val - s.v[x].toNat) = true := by
  rw [spriteCovers, Bool.and_eq_true, decide_eq_true_iff]
  rfl

theorem mem_visiblePixels {s : State} {n cx cy : Nat} {q : Fin n × Fin 8} :
    q ∈ visiblePixels s n cx cy ↔ pixelBit s q.1.val q.2.val = true ∧ cx + q.2.val < 64 ∧ cy + q.1.val < 32 := by
  simp [visiblePixels]

theorem mem_litCells {s : State} {x y : Reg} {n : Nat} {p : Fin 32 × Fin 64} :
    p ∈ litCells s x y n ↔ spriteCovers s x y n p.1 p.2 = true := by
  simp [litCells]

/-- Each visible pixel lights a cell of its own, and these are all the lit cells. -/
theorem card_visiblePixels (s : State) (x y : Reg) (n : Nat) :
    (visiblePixels s n s.v[x].toNat s.v[y].toNat).card = (litCells s x y n).card := by
  refine Finset.card_bij (fun q hq => pixelCell q (mem_visiblePixels.mp hq).2) ?_ ?_ ?_
  · rintro ⟨r, c⟩ hq
    obtain ⟨hbit, -⟩ := mem_visiblePixels.mp hq
    rw [mem_litCells, spriteCovers_iff]
    simp only [pixelCell, Nat.add_sub_cancel_left]
    exact ⟨by omega, hbit⟩
  · rintro ⟨r, c⟩ hq ⟨r', c'⟩ hq' heq
    simp only [pixelCell, Prod.mk.injEq, Fin.mk.injEq, Nat.add_left_cancel_iff] at heq
    exact Prod.ext (Fin.ext heq.1) (Fin.ext heq.2)
  · rintro ⟨row, col⟩ hp
    obtain ⟨⟨hleft, hright, htop, hbottom⟩, hbit⟩ := (spriteCovers_iff s x y n row col).mp (mem_litCells.mp hp)
    have hin : s.v[x].toNat + (col.val - s.v[x].toNat) < 64 ∧ s.v[y].toNat + (row.val - s.v[y].toNat) < 32 := by omega
    refine ⟨(⟨row.val - s.v[y].toNat, by omega⟩, ⟨col.val - s.v[x].toNat, by omega⟩),
      mem_visiblePixels.mpr ⟨hbit, hin⟩, ?_⟩
    exact Prod.ext (Fin.ext (Nat.add_sub_of_le htop)) (Fin.ext (Nat.add_sub_of_le hleft))

/-! ## The statements -/

/-- Settles O42: the pixel loop flips exactly the cells that the formula names, and VF is the one register written. -/
theorem drwXorsTheSpriteOntoTheGrid : Obligations.DrwXorsTheSpriteOntoTheGrid := by
  intro x y n s
  obtain ⟨-, hothers⟩ := onlyRegs_setV s vf (flagByte (s.drawSprite x y n).collided)
  exact ⟨_, exec_drw x y n s, rfl, fun r hr => hothers r (by simpa using hr), (s.drew_drawSprite x y n).cell⟩

/-- Settles O44: with the coordinates kept, the second draw lights the same cells, so it undoes the first; it collides
where the first has set a cell. -/
theorem drawingTwiceRestoresTheFramebuffer : Obligations.DrawingTwiceRestoresTheFramebuffer := by
  intro x y n s t u hfirst hx hy hsecond
  obtain ⟨d, hd, htfb, -, hmem, hi⟩ := drew_of_exec_drw hfirst
  obtain ⟨e, he, hufb, huvf, -, -⟩ := drew_of_exec_drw hsecond
  rw [spriteCovers_congr n hx hy hmem hi] at he
  have hrestored : e.fb = s.fb := hd.fb_eq_of_twice he htfb
  refine ⟨hufb.trans hrestored, ?_⟩
  rw [huvf, flagByte_eq_one_iff, he.collided_iff_unset, hrestored]
  exact exists_congr fun row => exists_congr fun col => And.comm

/-- Settles O45: on the clear framebuffer the set cells are the lit ones, and no set cell is met. -/
theorem drawAfterClearSetsAsManyCellsAsSpriteBits : Obligations.DrawAfterClearSetsAsManyCellsAsSpriteBits := by
  intro x y n s t u hclear hdraw
  cases hclear
  obtain ⟨d, hd, hufb, huvf, -, -⟩ := drew_of_exec_drw hdraw
  have hset : ∀ p : Fin 32 × Fin 64, u.fb[p.1][p.2] = spriteCovers s x y n p.1 p.2 := by
    rintro ⟨row, col⟩
    rw [hufb]
    refine (hd.cell row col).trans ?_
    rw [Framebuffer.cell_clear, Bool.false_xor]
    rfl
  refine ⟨?_, ?_⟩
  · rw [huvf, hd.collided_of_clear]
    rfl
  · simp only [hset]
    exact (card_visiblePixels s x y n).symm

end Sys2Proof.Machine
end
